-- ==== Sys2Proof/Word.lean ====
section
/-! DEFINITION. The widths the spec gives its data: bytes of the MIDI stream and of the shadow state, command
words, keys and operand fields (spec/30_encoding.md R50, R62, R63). -/

namespace Sys2Proof

/-- One byte: a MIDI byte, a shadow byte or the data of a bus write (R50, R17, R61). -/
abbrev Byte := BitVec 8

/-- A 4-bit field: a MIDI command nibble or channel nibble, a `ch`, `src` or `dst` operand (R51, R63). -/
abbrev Nibble := BitVec 4

/-- The 24-bit command word of the command port (R62). -/
abbrev CommandWord := BitVec 24

/-- A MIDI key, 0 to 127 (R63). -/
abbrev Key := BitVec 7

/-- A `slot` operand, 0 to 3 (R63). -/
abbrev SlotIndex := BitVec 2

/-- A `field` operand, 0 to 63 (R63). -/
abbrev FieldIndex := BitVec 6

end Sys2Proof
end

