-- ==== Sys2Proof/Config.lean ====
section
/-! DEFINITION. The configuration record of the block: every parameter of spec/00_scope.md R7 that the machine
reads, as plain data, and the free value for the noise-table entries the spec leaves open. -/

namespace Sys2Proof

/-- The scope tag of a field descriptor (R19, R60); its codes are `Machine.scopeCode`. -/
inductive Scope where
  | global
  | channel
  | slot
  deriving DecidableEq, Repr

/-- One entry of the descriptor table `FIELD` (R19, R60). -/
structure FieldDescriptor where
  /-- `bitWidth`, 1 to 8. -/
  w : Nat
  /-- `bitShift`, the position of the field's bit 0 in its byte. -/
  s : Nat
  /-- `storageSlot`, below `SHADOW_SIZE`: the flat offset of the field's byte for channel 0, slot 0. -/
  base : Nat
  scope : Scope
  deriving DecidableEq, Repr

/-- A register of the FM chip: one entry of `ADDR_MAP` (R20, R61). -/
structure ChipRegister where
  bank : BitVec 1
  addr : BitVec 8
  deriving DecidableEq, Repr

/-- The two feedback modes of the noise channel (R59, R110). -/
inductive FeedbackMode where
  | periodic
  | white
  deriving DecidableEq, Repr

/-- The four shift rates of the noise channel (R59, R110). -/
inductive ShiftRate where
  | rate512
  | rate1024
  | rate2048
  | shareChannel3
  deriving DecidableEq, Repr

/-- One entry of the noise decision table (R23). -/
structure NoiseEntry where
  fb : FeedbackMode
  rate : ShiftRate
  deriving DecidableEq, Repr

/-- One element of `DEFAULT_VOICE` (R128): a field, a slot and the value to set. -/
structure DefaultWrite where
  field : Nat
  slot : Nat
  value : Byte
  deriving DecidableEq, Repr

/-- The parameters of R7 that the machine reads. `SCALE` and `REF_PITCH` only say where the twelve table entries
come from (R101) and are not here. -/
structure Config where
  /-- `EN`: the enabled command nibbles (R21). -/
  en : List Nibble
  /-- `TABLE[0..11]`: the twelve pitch entries (R22). -/
  table : List Nat
  octaveOffset : Int
  maxBlock : Nat
  refDivisor : Nat
  psgNum : Nat
  psgRefOct : Nat
  psgMax : Nat
  /-- `NOISE_TABLE[0..11]` (R23); `none` is an entry the spec leaves open (R110, U5). -/
  noise : List (Option NoiseEntry)
  /-- `FIELD[0..N_FIELDS-1]` (R19). -/
  fields : List FieldDescriptor
  nCh : Nat
  chPerBank : Nat
  slotStride : Nat
  bankStride : Nat
  shadowSize : Nat
  /-- `ADDR_MAP`: flat offset to chip register (R20). -/
  addrMap : List ChipRegister
  /-- `DEFAULT_VOICE`, in order (R128). -/
  defaultVoice : List DefaultWrite
  /-- `SHADOW_RESET`: what every shadow byte holds after reset (R27). -/
  shadowReset : Byte
  deriving DecidableEq, Repr

/-- `N_FIELDS` (R7): the descriptor table's length. -/
abbrev Config.nFields (c : Config) : Nat := c.fields.length

/-- `N_SLOT` (R7): four slots per channel, fixed by the source. -/
abbrev Config.nSlot : Nat := 4

/-- The noise code of a table entry the spec leaves open (R110, U5): a FREE VALUE, the same at every call for one
index and otherwise unconstrained. DESIGN CHOICE, log entry 5; safe. -/
opaque Config.openNoise (n : Nat) : BitVec 3

end Sys2Proof
end

