-- ==== Sys2Proof/Machine/Operands.lean ====
section
/-! DEFINITION. How operands are taken apart and resolved: MIDI byte classes and nibbles, octave and pitch class of a
key, the flat offset of a field, the bits of a field in its byte. -/

namespace Sys2Proof.Machine

/-! MIDI bytes -/

/-- A byte is a status byte when its bit 7 is 1, else a data byte (R50). -/
def isStatus (b : Byte) : Bool := b.getLsbD 7

/-- Bits 7:4 of a status byte: the command nibble (R51). -/
def commandNibble (b : Byte) : Nibble := b.extractLsb' 4 4

/-- Bits 3:0 of a status byte: the channel nibble (R51). -/
def channelNibble (b : Byte) : Nibble := b.extractLsb' 0 4

/-- Bits 6:0 of a data byte (R51). -/
def dataValue (b : Byte) : BitVec 7 := b.extractLsb' 0 7

/-- The status byte of a command and a channel (R51). -/
def statusByte (command channel : Nibble) : Byte := command ++ channel

/-- The data byte of a 7-bit value (R51). -/
def dataByte (d : BitVec 7) : Byte := 0#1 ++ d

/-- `LEN`: the packet length in bytes of a command nibble 0x8 to 0xF, the status byte counted (R52). The numeric
nibbles are MIDI 1.0's (R52, G1). -/
def packetLength (command : Nibble) : BitVec 2 :=
  if command = 0xF then 1 else if command = 0xC ∨ command = 0xD then 2 else 3

/-! Keys -/

/-- `key div 12`, 0 to 10 (R109). -/
def octave (key : Key) : Nat := key.toNat / 12

/-- `key mod 12`: the index into the pitch and noise tables (R102). -/
def pitchClass (key : Key) : Nat := key.toNat % 12

/-- `clamp(v, lo, hi)` on signed integers (R8). -/
def clamp (v lo hi : Int) : Int := if v < lo then lo else if v > hi then hi else v

/-- The code of a feedback mode: 0 periodic, 1 white (R59). -/
def feedbackCode : FeedbackMode → BitVec 1
  | .periodic => 0
  | .white => 1

/-- The code of a shift rate, in the source's listing order (R59). -/
def rateCode : ShiftRate → BitVec 2
  | .rate512 => 0
  | .rate1024 => 1
  | .rate2048 => 2
  | .shareChannel3 => 3

/-- The 3-bit code of a noise-table entry, `fb ++ rate` (R59, R111). -/
def noiseEntryCode (e : NoiseEntry) : BitVec 3 := feedbackCode e.fb ++ rateCode e.rate

/-! Fields of the shadow state -/

/-- The numeric code of a scope tag (R60, D18). -/
def scopeCode : Scope → Nat
  | .global => 0
  | .channel => 1
  | .slot => 2

/-- The flat offset of the register of base `base` and scope `scope` for a channel and a slot (R123); the bank term is
the spec's (C2, D19). -/
def registerOffset (c : Config) (base : Nat) (scope : Scope) (ch slot : Nat) : Nat :=
  match scope with
  | .global => base
  | .channel => base + c.bankStride * (ch / c.chPerBank) + ch % c.chPerBank
  | .slot => base + c.bankStride * (ch / c.chPerBank) + ch % c.chPerBank + c.slotStride * slot

/-- `resolve(ch, slot, f)`: the flat offset, or `none` where R123 says reject: a field index at or beyond `N_FIELDS`,
then for a field that is not Global a channel at or beyond `N_CH`, then an offset beyond the shadow. -/
def resolve (c : Config) (ch slot f : Nat) : Option Nat :=
  match c.fields[f]? with
  | none => none
  | some d =>
    if d.scope ≠ .global ∧ c.nCh ≤ ch then none
    else if registerOffset c d.base d.scope ch slot < c.shadowSize then
      some (registerOffset c d.base d.scope ch slot)
    else none

/-- `2^w - 1`: `w` ones (R124). -/
def fieldMask (w : Nat) : Byte := BitVec.ofNat 8 (2 ^ w - 1)

/-- Steps 1 and 3 of SETFIELD: the value masked to the field's width and merged into the byte (R124, R64). -/
def insertField (d : FieldDescriptor) (value old : Byte) : Byte :=
  (old &&& ~~~(fieldMask d.w <<< d.s)) ||| ((value &&& fieldMask d.w) <<< d.s)

/-- The field's value in a byte, zero-extended (R126). -/
def extractField (d : FieldDescriptor) (byte : Byte) : Byte := (byte >>> d.s) &&& fieldMask d.w

/-- The chip register a flat offset mirrors (R32). An offset beyond the map has none; the value given there is never
used, because a well-formed map has `SHADOW_SIZE` entries (R122) and `resolve` gives no such offset. -/
def chipRegister (c : Config) (o : Nat) : ChipRegister := c.addrMap.getD o ⟨0, 0⟩

end Sys2Proof.Machine
end

