-- ==== Sys2Proof/Machine/Admission.lean ====
section
/-! DEFINITION. The conditions a configuration must meet, one Bool each, as the spec numbers them: the enabled set
(R7, D5), the frequency constants (R103), the descriptor table (R121), the address map (R122), and two the model infers
(R110, log entry 6; R60, log entry 14). A configuration that breaks one is refused (U2, U3, U4). -/

namespace Sys2Proof.Machine

/-- Every pair of a list's elements, the earlier one first, meets `r`. -/
def allPairs {α : Type} (r : α → α → Bool) : List α → Bool
  | [] => true
  | x :: xs => xs.all (r x) && allPairs r xs

/-- `EN` is a subset of `{0x8, 0x9, 0xB}` (R7, D5, U2). -/
def enabledAdmitted (c : Config) : Bool := c.en.all fun n => n == 0x8 || n == 0x9 || n == 0xB

/-- R103 condition 1: twelve strictly increasing entries, the first at least 1. -/
def tableRising (c : Config) : Bool :=
  c.table.length == 12 && allPairs (fun a b => decide (a < b)) c.table && decide (1 ≤ c.table.getD 0 0)

/-- R103 condition 2: the block is 3 bits. -/
def maxBlockFits (c : Config) : Bool := decide (c.maxBlock ≤ 7)

/-- R103 condition 3. -/
def divisorPositive (c : Config) : Bool := decide (1 ≤ c.refDivisor)

/-- R103 condition 4: the largest mantissa fits 11 bits. -/
def mantissaFits (c : Config) : Bool := decide (c.table.getD 11 0 * 512 / c.refDivisor ≤ 2047)

/-- R103 condition 5. -/
def psgConstantsOk (c : Config) : Bool :=
  decide (1 ≤ c.psgNum) && decide (c.psgRefOct ≤ 10) && c.psgMax == 1023

/-- The noise table has twelve entries, of which entry 0 (`NOTE_C`) is periodic, 512 and entry 6 (`NOTE_Fs`) is
white, 1024 (R110, D17). DEDUCED, log entry 6. -/
def noisePinned (c : Config) : Bool :=
  c.noise.length == 12 && c.noise.getD 0 none == some ⟨.periodic, .rate512⟩ &&
    c.noise.getD 6 none == some ⟨.white, .rate1024⟩

/-- R121 condition 1: every field lies in one byte. -/
def fieldsInByte (c : Config) : Bool := c.fields.all fun d => decide (1 ≤ d.w) && decide (d.w + d.s ≤ 8)

/-- The range of `base` (R60): every field's byte for channel 0, slot 0 lies in the shadow, whatever the scope and the
number of channels. That a breach is refused is DEDUCED, log entry 14; safe. -/
def basesInShadow (c : Config) : Bool := c.fields.all fun d => decide (d.base < c.shadowSize)

/-- The operands a scope looks at, over all legal ones: none for Global, the channel for Channel, the channel and the
slot for Slot (R123). -/
def legalOperands (c : Config) : Scope → List (Nat × Nat)
  | .global => [(0, 0)]
  | .channel => (List.range c.nCh).map fun ch => (ch, 0)
  | .slot => (List.range c.nCh).flatMap fun ch => (List.range Config.nSlot).map fun k => (ch, k)

/-- The distinct register families of the descriptor table: fields of one base and scope share a register byte. -/
def registerFamilies (c : Config) : List (Nat × Scope) := (c.fields.map fun d => (d.base, d.scope)).eraseDups

/-- The flat offset of every register of the descriptor table, each register once. -/
def registerOffsets (c : Config) : List Nat :=
  (registerFamilies c).flatMap fun r => (legalOperands c r.2).map fun p => registerOffset c r.1 r.2 p.1 p.2

/-- R121 condition 2: every legal operand resolves inside the shadow. -/
def offsetsInShadow (c : Config) : Bool := (registerOffsets c).all fun o => decide (o < c.shadowSize)

/-- R121 condition 3: distinct registers have distinct offsets. -/
def registersDistinct (c : Config) : Bool := allPairs (fun a b => a != b) (registerOffsets c)

/-- R121 condition 4: two fields of one register byte have disjoint bit spans. -/
def spansDisjoint (c : Config) : Bool :=
  allPairs (fun d e => d.base != e.base || d.scope != e.scope ||
    decide (d.s + d.w ≤ e.s) || decide (e.s + e.w ≤ d.s)) c.fields

/-- R121 condition 5: the tables fit the operand widths. -/
def operandWidthsOk (c : Config) : Bool :=
  decide (c.nFields ≤ 64) && decide (c.nCh ≤ 16) && decide (1 ≤ c.chPerBank)

/-- R121 condition 6: every element of the default voice names a field and a slot. -/
def defaultVoiceOk (c : Config) : Bool :=
  c.defaultVoice.all fun e => decide (e.field < c.nFields) && decide (e.slot < Config.nSlot)

/-- R122: the address map has exactly `SHADOW_SIZE` entries and is one-to-one. -/
def addressMapOk (c : Config) : Bool :=
  c.addrMap.length == c.shadowSize && allPairs (fun a b => a != b) c.addrMap

end Sys2Proof.Machine
end

