-- ==== Sys2Proof/Syntax.lean ====
section
/-! DEFINITION. The operations: one constructor per row of spec/opcode_table.json (R62, R69), and the items that
reach the block from outside. -/

namespace Sys2Proof

/-- One constructor per row of the opcode table. The sixteen rows of format `CMD` are commands of the command port
(R62); the nine rows of format `MIDI` are the bytes of the MIDI stream by class, each standing for the FEED of that
byte (R69, R90 to R94). -/
inductive Instr where
  /-- NOP (R140). -/
  | nop
  /-- FEED: one byte to the packet assembler (R82). -/
  | feed (b : Byte)
  /-- FEED_FAIL: the byte source reports a read failure (R81). -/
  | feedFail
  /-- ENC_FM: key to block and mantissa (R104). -/
  | encFm (key : Key)
  /-- ENC_PSG: key to 10-bit period (R106). -/
  | encPsg (key : Key)
  /-- ENC_NOISE: key to noise code (R111). -/
  | encNoise (key : Key)
  /-- SETFIELD: read-modify-write of one field (R124). -/
  | setField (ch : Nibble) (slot : SlotIndex) (field : FieldIndex) (value : Byte)
  /-- GETFIELD: read back of one field (R126). -/
  | getField (ch : Nibble) (slot : SlotIndex) (field : FieldIndex)
  /-- INIT_VOICE: the default voice on one channel (R128). -/
  | initVoice (ch : Nibble)
  /-- MIRROR: copy one channel's register bytes to another (R130). -/
  | mirror (src dst : Nibble)
  /-- BUS_RESET: reset the chip and clear the shadow (R141). -/
  | busReset
  /-- Reserved operation code 0xB (R142). -/
  | reservedB
  /-- Reserved operation code 0xC (R142). -/
  | reservedC
  /-- Reserved operation code 0xD (R142). -/
  | reservedD
  /-- Reserved operation code 0xE (R142). -/
  | reservedE
  /-- Reserved operation code 0xF (R142). -/
  | reservedF
  /-- A data byte (R94). -/
  | data (d : BitVec 7)
  /-- Status byte 0x8n (R90). -/
  | noteOff (channel : Nibble)
  /-- Status byte 0x9n (R91). -/
  | noteOn (channel : Nibble)
  /-- Status byte 0xAn (R93). -/
  | polyPressure (channel : Nibble)
  /-- Status byte 0xBn (R92). -/
  | controlChange (channel : Nibble)
  /-- Status byte 0xCn (R93). -/
  | programChange (channel : Nibble)
  /-- Status byte 0xDn (R93). -/
  | channelPressure (channel : Nibble)
  /-- Status byte 0xEn (R93). -/
  | pitchBend (channel : Nibble)
  /-- Status byte 0xFn, the real-time bytes included (R93, R97). -/
  | system (sub : Nibble)
  deriving DecidableEq, Repr

/-- What reaches the block from outside, one item at a time (R2, R30): a command word of the command port, a byte of
the MIDI stream, or the byte source's failure mark. -/
inductive Input where
  | command (w : CommandWord)
  | midi (b : Byte)
  | failure
  deriving DecidableEq, Repr

end Sys2Proof
end

