-- ==== Sys2Proof/WellFormed.lean ====
section
/-! DEFINITION. What is well-formed. An instruction's operands have the exact widths of R63 in their types, so every
term of Instr is one; what can be ill-formed is the configuration (R103, R121, R122, U2 to U4). -/

namespace Sys2Proof

/-- The configuration meets every condition the spec puts on it. Two of them are conditions by the model's inference:
the pinned noise entries (R110; DEDUCED, log entry 6) and the range of `base` (R60; DEDUCED, log entry 14). A
machine whose configuration does not meet them is refused before any step (U2, U3, U4). -/
def Config.wf (c : Config) : Bool :=
  Machine.enabledAdmitted c && Machine.tableRising c && Machine.maxBlockFits c && Machine.divisorPositive c &&
    Machine.mantissaFits c && Machine.psgConstantsOk c && Machine.noisePinned c && Machine.fieldsInByte c &&
    Machine.basesInShadow c && Machine.offsetsInShadow c && Machine.registersDistinct c && Machine.spansDisjoint c &&
    Machine.operandWidthsOk c && Machine.defaultVoiceOk c && Machine.addressMapOk c

end Sys2Proof
end

