-- ==== Sys2Proof/Decode.lean ====
section
/-! DEFINITION. The decoder of command words (R62, R63) and of MIDI bytes (R50 to R52, R69), total on every word and
byte, and after it the encoder and the opcode table's own masks and patterns. -/

namespace Sys2Proof

/-- Why a bit pattern of the opcode table is no instruction: its width is neither a command word's nor a byte's. -/
inductive DecodeError where
  | widthNotInTable (nbits : Nat)
  deriving DecidableEq, Repr

/-- The operation code of a command word, bits 23:20 (R62). -/
def opcodeOf (w : CommandWord) : Nibble := w.extractLsb' 20 4

/-- The operand in bits 19:16: `ch` or `src` (R62). -/
def chOperand (w : CommandWord) : Nibble := w.extractLsb' 16 4

/-- The `dst` operand, bits 15:12 (R62). -/
def dstOperand (w : CommandWord) : Nibble := w.extractLsb' 12 4

/-- The `slot` operand, bits 15:14 (R62). -/
def slotOperand (w : CommandWord) : SlotIndex := w.extractLsb' 14 2

/-- The `field` operand, bits 13:8 (R62). -/
def fieldOperand (w : CommandWord) : FieldIndex := w.extractLsb' 8 6

/-- The `byte` or `value` operand, bits 7:0 (R62). -/
def byteOperand (w : CommandWord) : Byte := w.extractLsb' 0 8

/-- The `key` operand, bits 6:0; bit 7 is ignored (R62). -/
def keyOperand (w : CommandWord) : Key := w.extractLsb' 0 7

/-- The operation a command word stands for (R62). Bits the table marks ignored are not looked at (R63). -/
def decodeCommand (w : CommandWord) : Instr :=
  match (opcodeOf w).toNat with
  | 0 => .nop
  | 1 => .feed (byteOperand w)
  | 2 => .feedFail
  | 3 => .encFm (keyOperand w)
  | 4 => .encPsg (keyOperand w)
  | 5 => .encNoise (keyOperand w)
  | 6 => .setField (chOperand w) (slotOperand w) (fieldOperand w) (byteOperand w)
  | 7 => .getField (chOperand w) (slotOperand w) (fieldOperand w)
  | 8 => .initVoice (chOperand w)
  | 9 => .mirror (chOperand w) (dstOperand w)
  | 10 => .busReset
  | 11 => .reservedB
  | 12 => .reservedC
  | 13 => .reservedD
  | 14 => .reservedE
  | _ => .reservedF  -- 15, the one 4-bit code left

/-- The row of the opcode table a MIDI byte falls in (R69, R50, R52). -/
def decodeMidi (b : Byte) : Instr :=
  if Machine.isStatus b then
    match (Machine.commandNibble b).toNat with
    | 8 => .noteOff (Machine.channelNibble b)
    | 9 => .noteOn (Machine.channelNibble b)
    | 10 => .polyPressure (Machine.channelNibble b)
    | 11 => .controlChange (Machine.channelNibble b)
    | 12 => .programChange (Machine.channelNibble b)
    | 13 => .channelPressure (Machine.channelNibble b)
    | 14 => .pitchBend (Machine.channelNibble b)
    | _ => .system (Machine.channelNibble b)  -- 15, the one nibble with bit 3 set that is left
  else .data (Machine.dataValue b)

/-- The operation an item from outside stands for: a command word's, a MIDI byte's, or FEED_FAIL for the byte source's
failure mark (R62, R69, R80, R150). -/
def decodeInput : Input → Instr
  | .command w => decodeCommand w
  | .midi b => decodeMidi b
  | .failure => .feedFail

/-- An instruction's bits, numbered as the opcode table numbers them, as an item the machine takes: 24 bits are a
command word, 8 bits a MIDI byte; any other width is rejected by name. -/
def inputOfBits (nbits w : Nat) : Except DecodeError Input :=
  if nbits = 24 then .ok (.command (BitVec.ofNat 24 w))
  else if nbits = 8 then .ok (.midi (BitVec.ofNat 8 w))
  else .error (.widthNotInTable nbits)

/-- What the decoder reads from an opcode-table row's bits. -/
def decodeTableWord (nbits w : Nat) : Option Instr :=
  match inputOfBits nbits w with
  | .ok x => some (decodeInput x)
  | .error _ => none

/-! The encoder -/

/-- A command word from its operation code and its 20 operand bits (R62). -/
def commandWord (op : Nibble) (operands : BitVec 20) : CommandWord := op ++ operands

/-- The command word or MIDI byte of an operation; bits the table marks ignored are 0 (R62, R68, R51). -/
def encode : Instr → Input
  | .nop => .command (commandWord 0x0 0)
  | .feed b => .command (commandWord 0x1 (0#12 ++ b))
  | .feedFail => .command (commandWord 0x2 0)
  | .encFm key => .command (commandWord 0x3 (0#13 ++ key))
  | .encPsg key => .command (commandWord 0x4 (0#13 ++ key))
  | .encNoise key => .command (commandWord 0x5 (0#13 ++ key))
  | .setField ch slot field value => .command (commandWord 0x6 (ch ++ slot ++ field ++ value))
  | .getField ch slot field => .command (commandWord 0x7 (ch ++ slot ++ field ++ 0#8))
  | .initVoice ch => .command (commandWord 0x8 (ch ++ 0#16))
  | .mirror src dst => .command (commandWord 0x9 (src ++ dst ++ 0#12))
  | .busReset => .command (commandWord 0xA 0)
  | .reservedB => .command (commandWord 0xB 0)
  | .reservedC => .command (commandWord 0xC 0)
  | .reservedD => .command (commandWord 0xD 0)
  | .reservedE => .command (commandWord 0xE 0)
  | .reservedF => .command (commandWord 0xF 0)
  | .data d => .midi (Machine.dataByte d)
  | .noteOff channel => .midi (Machine.statusByte 0x8 channel)
  | .noteOn channel => .midi (Machine.statusByte 0x9 channel)
  | .polyPressure channel => .midi (Machine.statusByte 0xA channel)
  | .controlChange channel => .midi (Machine.statusByte 0xB channel)
  | .programChange channel => .midi (Machine.statusByte 0xC channel)
  | .channelPressure channel => .midi (Machine.statusByte 0xD channel)
  | .pitchBend channel => .midi (Machine.statusByte 0xE channel)
  | .system sub => .midi (Machine.statusByte 0xF sub)

/-! The opcode table -/

/-- A row of the opcode table: its mnemonic, its width, and the mask and pattern its bits are matched with (R69). -/
structure OpcodeRow where
  mnemonic : String
  nbits : Nat
  mask : Nat
  pattern : Nat
  deriving DecidableEq, Repr

/-- The rows of format CMD, matched against the 24-bit command word (R69). -/
def commandRows : List OpcodeRow :=
  [⟨"NOP", 24, 0xF00000, 0x000000⟩, ⟨"FEED", 24, 0xF00000, 0x100000⟩, ⟨"FEED_FAIL", 24, 0xF00000, 0x200000⟩,
    ⟨"ENC_FM", 24, 0xF00000, 0x300000⟩, ⟨"ENC_PSG", 24, 0xF00000, 0x400000⟩,
    ⟨"ENC_NOISE", 24, 0xF00000, 0x500000⟩, ⟨"SETFIELD", 24, 0xF00000, 0x600000⟩,
    ⟨"GETFIELD", 24, 0xF00000, 0x700000⟩, ⟨"INIT_VOICE", 24, 0xF00000, 0x800000⟩,
    ⟨"MIRROR", 24, 0xF00000, 0x900000⟩, ⟨"BUS_RESET", 24, 0xF00000, 0xA00000⟩,
    ⟨"RESERVED_B", 24, 0xF00000, 0xB00000⟩, ⟨"RESERVED_C", 24, 0xF00000, 0xC00000⟩,
    ⟨"RESERVED_D", 24, 0xF00000, 0xD00000⟩, ⟨"RESERVED_E", 24, 0xF00000, 0xE00000⟩,
    ⟨"RESERVED_F", 24, 0xF00000, 0xF00000⟩]

/-- The rows of format MIDI, matched against the input byte of a FEED (R69). -/
def midiRows : List OpcodeRow :=
  [⟨"DATA", 8, 0x80, 0x00⟩, ⟨"NOTE_OFF", 8, 0xF0, 0x80⟩, ⟨"NOTE_ON", 8, 0xF0, 0x90⟩,
    ⟨"POLY_PRESSURE", 8, 0xF0, 0xA0⟩, ⟨"CONTROL_CHANGE", 8, 0xF0, 0xB0⟩, ⟨"PROGRAM_CHANGE", 8, 0xF0, 0xC0⟩,
    ⟨"CHANNEL_PRESSURE", 8, 0xF0, 0xD0⟩, ⟨"PITCH_BEND", 8, 0xF0, 0xE0⟩, ⟨"SYSTEM", 8, 0xF0, 0xF0⟩]

/-- A bit pattern matches a row when its masked bits are the row's pattern. -/
def OpcodeRow.matches (r : OpcodeRow) (w : Nat) : Bool := w &&& r.mask == r.pattern

/-- The opcode-table mnemonic of an operation. -/
def Instr.mnemonic : Instr → String
  | .nop => "NOP"
  | .feed _ => "FEED"
  | .feedFail => "FEED_FAIL"
  | .encFm _ => "ENC_FM"
  | .encPsg _ => "ENC_PSG"
  | .encNoise _ => "ENC_NOISE"
  | .setField _ _ _ _ => "SETFIELD"
  | .getField _ _ _ => "GETFIELD"
  | .initVoice _ => "INIT_VOICE"
  | .mirror _ _ => "MIRROR"
  | .busReset => "BUS_RESET"
  | .reservedB => "RESERVED_B"
  | .reservedC => "RESERVED_C"
  | .reservedD => "RESERVED_D"
  | .reservedE => "RESERVED_E"
  | .reservedF => "RESERVED_F"
  | .data _ => "DATA"
  | .noteOff _ => "NOTE_OFF"
  | .noteOn _ => "NOTE_ON"
  | .polyPressure _ => "POLY_PRESSURE"
  | .controlChange _ => "CONTROL_CHANGE"
  | .programChange _ => "PROGRAM_CHANGE"
  | .channelPressure _ => "CHANNEL_PRESSURE"
  | .pitchBend _ => "PITCH_BEND"
  | .system _ => "SYSTEM"

/-! The pseudo-operations of the assembler notation (R68): each stands for three FEEDs. -/

/-- `noteoff C, K, V` (R68). -/
def noteOffOps (c : Nibble) (k v : BitVec 7) : List Instr :=
  [.feed (Machine.statusByte 0x8 c), .feed (Machine.dataByte k), .feed (Machine.dataByte v)]

/-- `noteon C, K, V` (R68). -/
def noteOnOps (c : Nibble) (k v : BitVec 7) : List Instr :=
  [.feed (Machine.statusByte 0x9 c), .feed (Machine.dataByte k), .feed (Machine.dataByte v)]

/-- `cc C, N, V` (R68). -/
def ccOps (c : Nibble) (n v : BitVec 7) : List Instr :=
  [.feed (Machine.statusByte 0xB c), .feed (Machine.dataByte n), .feed (Machine.dataByte v)]

end Sys2Proof
end

