-- ==== Sys2Proof/Machine/Reference.lean ====
section
/-! DEFINITION. The reference configuration: the reference column of R7, the pitch values of R112 and the tables of
R134. Its values are the spec's own choice, not the source's; log entry 3. -/

namespace Sys2Proof.Machine

/-- `A[o mod 16]` of R134: the register address by position in a bank. -/
def referenceAddresses : List (BitVec 8) :=
  [0x30, 0x31, 0x32, 0x34, 0x35, 0x36, 0x38, 0x39, 0x3A, 0x3C, 0x3D, 0x3E, 0xB0, 0xB1, 0xB2, 0x22]

/-- The reference configuration of R7, R112 and R134; the ten noise entries the spec leaves open stay open (D17). -/
def referenceConfig : Config where
  en := [0x8, 0x9, 0xB]
  table := [18837, 19957, 21144, 22401, 23733, 25144, 26640, 28224, 29902, 31680, 33564, 35560]
  octaveOffset := -1
  maxBlock := 7
  refDivisor := 15625
  psgNum := 9000000
  psgRefOct := 5
  psgMax := 1023
  noise := [some ⟨.periodic, .rate512⟩, none, none, none, none, none,
    some ⟨.white, .rate1024⟩, none, none, none, none, none]
  fields := [⟨3, 4, 0, .slot⟩, ⟨4, 0, 0, .slot⟩, ⟨3, 3, 12, .channel⟩, ⟨3, 0, 12, .channel⟩,
    ⟨1, 3, 15, .global⟩, ⟨3, 0, 15, .global⟩]
  nCh := 6
  chPerBank := 3
  slotStride := 3
  bankStride := 16
  shadowSize := 32
  addrMap := (referenceAddresses.map fun a => ⟨0, a⟩) ++ (referenceAddresses.map fun a => ⟨1, a⟩)
  defaultVoice := [⟨0, 0, 7⟩, ⟨1, 0, 1⟩, ⟨0, 1, 7⟩, ⟨1, 1, 1⟩, ⟨0, 2, 7⟩, ⟨1, 2, 1⟩, ⟨0, 3, 7⟩, ⟨1, 3, 1⟩,
    ⟨2, 0, 0⟩, ⟨3, 0, 7⟩]
  shadowReset := 0

end Sys2Proof.Machine
end

