-- ==== Sys2Proof/Machine/State.lean ====
section
/-! DEFINITION. The machine's state as plain data (spec/10_state.md): the packet assembler's registers, the shadow
state, the bus history, the configuration, and the model's own input and result ports; the two ways a step can stop;
the state after reset. -/

namespace Sys2Proof.Machine

/-- The two states of the packet assembler (R11); their codes are `AwaitStatus` = 0, `AwaitData` = 1. -/
inductive MpaState where
  | awaitStatus
  | awaitData
  deriving DecidableEq, Repr

/-- The five working registers of the packet assembler (R10 to R12). -/
structure Mpa where
  st : MpaState
  /-- The status byte that began the packet in progress (8 bits). -/
  status : Byte
  /-- The packet's total length in bytes, the status byte counted (2 bits). -/
  need : BitVec 2
  /-- The bytes of the packet received so far, the status byte counted (2 bits). -/
  cnt : BitVec 2
  /-- The first data byte once it has arrived (7 bits). -/
  d1 : BitVec 7
  deriving DecidableEq, Repr

/-- The five registers as every return to `AwaitStatus` leaves them (R13, R81, D3). -/
def Mpa.idle : Mpa := ⟨.awaitStatus, 0, 0, 0, 0⟩

/-- A MIDI event as its four bit fields (R55). `kind` is `status[5:4]`: 00 NoteOff, 01 NoteOn, 11 ControlChange. -/
structure MidiEvent where
  kind : BitVec 2
  channel : Nibble
  data1 : BitVec 7
  data2 : BitVec 7
  deriving DecidableEq, Repr

/-- The result of an operation: `none`, or a payload of the operation's own format (R65, R26). -/
inductive Result where
  | none
  /-- FEED: a completed packet (R55). -/
  | event (e : MidiEvent)
  /-- ENC_FM: block in bits 13:11, mantissa in bits 10:0 (R57). -/
  | fmCode (code : BitVec 14)
  /-- ENC_PSG: the period (R58). -/
  | psgPeriod (period : BitVec 10)
  /-- ENC_NOISE: feedback mode in bit 2, rate in bits 1:0 (R59). -/
  | noiseCode (code : BitVec 3)
  /-- GETFIELD: the field's value, zero-extended to 8 bits (R126). -/
  | value (v : Byte)
  deriving DecidableEq, Repr

/-- An event on the bus to the chip (R25, R61): `W(bank, addr, data)` or `RST`. -/
inductive BusEvent where
  | w (bank : BitVec 1) (addr data : BitVec 8)
  | rst
  deriving DecidableEq, Repr

/-- Bytes by address in canonical form: addresses strictly rising, no entry equal to what an unlisted address reads
as. -/
abbrev Memory := List Host.Cell

/-- The state of the block (R10), with its configuration and the model's own ports. -/
structure State where
  /-- The packet assembler's registers (R11, R12). -/
  mpa : Mpa
  /-- `SH`: the shadow bytes by flat offset (R17); an unlisted offset reads as `SHADOW_RESET`. -/
  sh : Memory
  /-- `BUS`: every bus event the block has issued, oldest first (R25). -/
  bus : List BusEvent
  /-- The configuration (R7): constant, no operation writes it (R48). It stands in the state so that every claim over
  states quantifies over it; log entry 2. -/
  cfg : Config
  /-- The model's own: the result of the operation that ran last (R65, R26); log entry 4. -/
  result : Result
  /-- The model's own: the items the outside has presented and the block has not taken yet, oldest first (R2, R44);
  log entry 1. -/
  pending : List Input
  deriving DecidableEq, Repr

/-- No operation faults: "No operation in this core is fatal" (R170), and the spec treats nothing as a fault
(spec/93_implementation_defined.md, end of part 1). So there is no reason to fault and the type is empty. -/
inductive Fault where
  deriving DecidableEq, Repr

/-- Why a step gives no next state. -/
inductive Refusal where
  /-- Raised by an arm of `exec` whose instruction has no meaning yet. Safe: it only stops. -/
  | notModelled (mnemonic : String)
  /-- Raised by the five reserved operation codes: the spec gives them no meaning and says a model refuses them (R142,
  U1). Safe: it only stops. -/
  | reservedOperation (op : Nibble)
  /-- Raised by every operation but the reserved ones where the configuration breaks a condition of R7, R103, R121 or
  R122 (U2, U3, U4), or one of the two the model infers (R110, log entry 6; R60, log entry 14). That each operation
  raises it is the model's form, log entry 13. Safe: it only stops. -/
  | illFormedConfiguration
  deriving DecidableEq, Repr

/-- The state after reset (R27, R191): the assembler idle, every shadow byte at `SHADOW_RESET`, the bus history empty,
the tables at their configured contents; no result, nothing presented. The configuration is the reference one, log
entry 3. -/
def State.reset : State where
  mpa := Mpa.idle
  sh := []
  bus := []
  cfg := referenceConfig
  result := .none
  pending := []

end Sys2Proof.Machine
end

