-- ==== Sys2Proof/Machine/Ops.lean ====
section
/-! DEFINITION. The shared operations: reading and writing shadow bytes, a byte write that reaches mirror and bus
together, the abort of a packet, answering with a result, taking the next item from outside, and the words of events
and results. Nothing here takes an exception: the block has none (R170, R177). -/

namespace Sys2Proof.Machine

/-! Memory in canonical form -/

/-- The byte at an address; an unlisted address reads as `u`. -/
def memRead (u : Byte) (a : Nat) : Memory → Byte
  | [] => u
  | (b, x) :: m => if b = a then x else memRead u a m

/-- Memory with the byte at an address written, in canonical form. -/
def memWrite (u : Byte) (a : Nat) (v : Byte) : Memory → Memory
  | [] => if v = u then [] else [(a, v)]
  | (b, x) :: m =>
    if b < a then (b, x) :: memWrite u a v m
    else if b = a then if v = u then m else (a, v) :: m
    else if v = u then (b, x) :: m else (a, v) :: (b, x) :: m

/-- The canonical form: addresses strictly rising, no entry equal to what an unlisted address reads as. -/
def Memory.wf (u : Byte) : Memory → Bool
  | [] => true
  | (a, v) :: m => v != u && m.all (fun cell => decide (a < cell.1)) && Memory.wf u m

/-! The shadow state and the bus -/

/-- What an unlisted shadow byte reads as: `SHADOW_RESET` (R27). -/
def unlisted (s : State) : Byte := s.cfg.shadowReset

/-- `ShRead(o)` (R8). -/
def shRead (s : State) (o : Nat) : Byte := memRead (unlisted s) o s.sh

/-- `ShWrite(o, v)` and `BusWrite(ADDR_MAP[o], v)` as one step: every byte written to the mirror is written to the bus
(R37, R124 steps 4 and 5, R130). -/
def putByte (o : Nat) (v : Byte) (s : State) : State :=
  { s with
    sh := memWrite (unlisted s) o v s.sh
    bus := s.bus ++ [.w (chipRegister s.cfg o).bank (chipRegister s.cfg o).addr v] }

/-- `BusReset()` and every shadow byte to `SHADOW_RESET` (R141): with nothing listed, every byte reads so. -/
def resetBus (s : State) : State := { s with sh := [], bus := s.bus ++ [.rst] }

/-! Results -/

/-- The operation ends with this result (R65). -/
def answer (r : Result) (s : State) : State := { s with result := r }

/-- The operation's outcome: its next state, unless the configuration is ill-formed, which is refused before any step
(R170, U2 to U4). -/
def admitted (s t : State) : Host.Outcome State Fault Refusal :=
  if s.cfg.wf then .next t else .refused .illFormedConfiguration

/-- The 20-bit word of an event: `kind`, `channel`, `data1`, `data2` from the top (R55). -/
def eventWord (e : MidiEvent) : BitVec 20 := e.kind ++ e.channel ++ e.data1 ++ e.data2

/-- A result as its 21-bit word: bit 20 valid, bits 19:0 the payload zero-extended (R65). -/
def resultWord : Result → BitVec 21
  | .none => 0
  | .event e => 1#1 ++ eventWord e
  | .fmCode c => 1#1 ++ c.setWidth 20
  | .psgPeriod p => 1#1 ++ p.setWidth 20
  | .noiseCode n => 1#1 ++ n.setWidth 20
  | .value v => 1#1 ++ v.setWidth 20

/-! Taking the next item -/

/-- The operation the block takes next, and the state with its item taken. With nothing presented the command port is
idle, and an idle port reads as the all-zero command word (R140, D2). -/
def fetch (s : State) : Instr × State :=
  match s.pending with
  | [] => (decodeInput (.command 0), s)
  | x :: rest => (decodeInput x, { s with pending := rest })

/-- The state with an item presented ahead of all others. -/
def present (x : Input) (s : State) : State := { s with pending := x :: s.pending }

end Sys2Proof.Machine
end

