-- ==== Sys2Proof/Machine/Frequency.lean ====
section
/-! DEFINITION. The frequency encoder: ENC_FM, ENC_PSG and ENC_NOISE, functions of the key and the constants that
write nothing but the result (spec/41_frequency_encoder.md). All arithmetic is exact (R109). -/

namespace Sys2Proof.Machine

/-- The pitch entry of a key: `TABLE[key mod 12]` (R102). -/
def pitchEntry (c : Config) (key : Key) : Nat := c.table.getD (pitchClass key) 0

/-- The block of a key: the signed sum, clamped (R104). -/
def blockOf (c : Config) (key : Key) : Nat := (clamp (octave key + c.octaveOffset) 0 c.maxBlock).toNat

/-- The mantissa of a key: an exact product, a truncating division (R104). -/
def mantissaOf (c : Config) (key : Key) : Nat := pitchEntry c key * 512 / c.refDivisor

/-- The FM frequency code of a key (R104, R57). -/
def fmCodeOf (c : Config) (key : Key) : BitVec 14 := BitVec.ofNat 14 (blockOf c key <<< 11 ||| mantissaOf c key)

/-- The scaled numerator, shifted left below and right above the reference octave (R106). -/
def psgNumerator (c : Config) (key : Key) : Nat :=
  if octave key ≤ c.psgRefOct then c.psgNum <<< (c.psgRefOct - octave key)
  else c.psgNum >>> (octave key - c.psgRefOct)

/-- The period before halving, rounded by half the divisor (R106). -/
def rawPeriod (c : Config) (key : Key) : Nat :=
  (psgNumerator c key + pitchEntry c key / 2) / pitchEntry c key

/-- Halve while the period exceeds the bound, in at most `fuel` turns (R106, R107). -/
def halveTo (bound : Nat) : Nat → Nat → Nat
  | 0, p => p
  | fuel + 1, p => if p ≤ bound then p else halveTo bound fuel (p / 2)

/-- The tone-chip period of a key (R106). A period of `p` needs fewer than `p` halvings, so the fuel is never what ends
the loop. -/
def psgPeriodOf (c : Config) (key : Key) : BitVec 10 :=
  BitVec.ofNat 10 (halveTo c.psgMax (rawPeriod c key) (rawPeriod c key))

/-- The noise code of a key (R111): its table entry's, or the free value where the spec leaves the entry open (R110,
U5). -/
def noiseCodeOf (c : Config) (key : Key) : BitVec 3 :=
  match c.noise.getD (pitchClass key) none with
  | some e => noiseEntryCode e
  | none => Config.openNoise (pitchClass key)

/-- ENC_FM (R104). -/
def execEncFm (key : Key) (s : State) : Host.Outcome State Fault Refusal :=
  admitted s (answer (.fmCode (fmCodeOf s.cfg key)) s)

/-- ENC_PSG (R106). -/
def execEncPsg (key : Key) (s : State) : Host.Outcome State Fault Refusal :=
  admitted s (answer (.psgPeriod (psgPeriodOf s.cfg key)) s)

/-- ENC_NOISE (R111). -/
def execEncNoise (key : Key) (s : State) : Host.Outcome State Fault Refusal :=
  admitted s (answer (.noiseCode (noiseCodeOf s.cfg key)) s)

end Sys2Proof.Machine
end

