-- ==== Sys2Proof/Machine/Midi.lean ====
section
/-! DEFINITION. The packet assembler: FEED and FEED_FAIL (R80 to R89) and the nine byte classes of the opcode table
(R90 to R94), each the FEED of its byte. -/

namespace Sys2Proof.Machine

/-- `event(status, d1, b)` (R88, R55). -/
def eventOf (status : Byte) (d1 : BitVec 7) (b : Byte) : MidiEvent :=
  ⟨status.extractLsb' 4 2, channelNibble status, d1, dataValue b⟩

/-- The registers with a new packet begun by an enabled status byte (R83). -/
def beginPacket (b : Byte) : Mpa := ⟨.awaitData, b, packetLength (commandNibble b), 1, 0⟩

/-- FEED on the registers: their next values and the result (R82, whose cases are R83 to R88). -/
def feedMpa (c : Config) (b : Byte) (m : Mpa) : Mpa × Result :=
  if isStatus b then
    if commandNibble b ∈ c.en then (beginPacket b, .none) else (Mpa.idle, .none)
  else
    match m.st with
    | .awaitStatus => (m, .none)
    | .awaitData =>
      if m.cnt.toNat + 1 < m.need.toNat then ({ m with d1 := dataValue b, cnt := m.cnt + 1 }, .none)
      else (Mpa.idle, .event (eventOf m.status m.d1 b))

/-- FEED on the state: only the assembler's registers and the result change (R80). -/
def feedByte (b : Byte) (s : State) : State :=
  answer (feedMpa s.cfg b s.mpa).2 { s with mpa := (feedMpa s.cfg b s.mpa).1 }

/-- The abort of a packet: all five registers to their `AwaitStatus` values (R81, R177). -/
def abortPacket (s : State) : State := answer .none { s with mpa := Mpa.idle }

/-- FEED (R82). -/
def execFeed (b : Byte) (s : State) : Host.Outcome State Fault Refusal := admitted s (feedByte b s)

/-- FEED_FAIL (R81). -/
def execFeedFail (s : State) : Host.Outcome State Fault Refusal := admitted s (abortPacket s)

/-- DATA: a data byte (R94). -/
def execData (d : BitVec 7) (s : State) : Host.Outcome State Fault Refusal := admitted s (feedByte (dataByte d) s)

/-- NOTE_OFF (R90). -/
def execNoteOff (channel : Nibble) (s : State) : Host.Outcome State Fault Refusal :=
  admitted s (feedByte (statusByte 0x8 channel) s)

/-- NOTE_ON (R91). -/
def execNoteOn (channel : Nibble) (s : State) : Host.Outcome State Fault Refusal :=
  admitted s (feedByte (statusByte 0x9 channel) s)

/-- POLY_PRESSURE (R93). -/
def execPolyPressure (channel : Nibble) (s : State) : Host.Outcome State Fault Refusal :=
  admitted s (feedByte (statusByte 0xA channel) s)

/-- CONTROL_CHANGE (R92). -/
def execControlChange (channel : Nibble) (s : State) : Host.Outcome State Fault Refusal :=
  admitted s (feedByte (statusByte 0xB channel) s)

/-- PROGRAM_CHANGE (R93). -/
def execProgramChange (channel : Nibble) (s : State) : Host.Outcome State Fault Refusal :=
  admitted s (feedByte (statusByte 0xC channel) s)

/-- CHANNEL_PRESSURE (R93). -/
def execChannelPressure (channel : Nibble) (s : State) : Host.Outcome State Fault Refusal :=
  admitted s (feedByte (statusByte 0xD channel) s)

/-- PITCH_BEND (R93). -/
def execPitchBend (channel : Nibble) (s : State) : Host.Outcome State Fault Refusal :=
  admitted s (feedByte (statusByte 0xE channel) s)

/-- SYSTEM (R93), the real-time bytes included (R97). -/
def execSystem (sub : Nibble) (s : State) : Host.Outcome State Fault Refusal :=
  admitted s (feedByte (statusByte 0xF sub) s)

end Sys2Proof.Machine
end

