-- ==== Sys2Proof/Machine/Shadow.lean ====
section
/-! DEFINITION. The shadow-register controller: SETFIELD, GETFIELD, INIT_VOICE and MIRROR
(spec/42_shadow_register.md). A rejected operation changes neither shadow nor bus and gives no result (R133). -/

namespace Sys2Proof.Machine

/-- SETFIELD's five steps on the state; on reject, nothing (R124). -/
def writeField (ch slot f : Nat) (value : Byte) (s : State) : State :=
  match s.cfg.fields[f]?, resolve s.cfg ch slot f with
  | some d, some o => putByte o (insertField d value (shRead s o)) s
  | _, _ => s

/-- GETFIELD's result: the field's value, or `none` on reject (R126). -/
def readField (ch slot f : Nat) (s : State) : Result :=
  match s.cfg.fields[f]?, resolve s.cfg ch slot f with
  | some d, some o => .value (extractField d (shRead s o))
  | _, _ => .none

/-- One SETFIELD per element of the list, in list order (R128). -/
def writeVoice (ch : Nat) (voice : List DefaultWrite) (s : State) : State :=
  voice.foldl (fun t e => writeField ch e.slot e.field e.value t) s

/-- INIT_VOICE: the default voice on one channel; a channel beyond `N_CH` is rejected before anything is written
(R128). -/
def initVoice (ch : Nat) (s : State) : State := if s.cfg.nCh ≤ ch then s else writeVoice ch s.cfg.defaultVoice s

/-- The (field, slot) pairs MIRROR goes through: fields ascending, Global ones left out, four slots for a Slot field
and one for a Channel field (R130). -/
def mirrorOperands (c : Config) : List (Nat × Nat) :=
  (List.range c.nFields).flatMap fun f =>
    match (c.fields[f]?).map FieldDescriptor.scope with
    | some .slot => (List.range Config.nSlot).map fun k => (f, k)
    | some .channel => [(f, 0)]
    | _ => []

/-- One turn of MIRROR's loop: copy the source's byte to the destination's unless that one is already done (R130). The
offsets resolve, since the channels are in range and the configuration is well-formed (R121). -/
def mirrorTurn (src dst : Nat) (acc : State × List Nat) (fk : Nat × Nat) : State × List Nat :=
  match resolve acc.1.cfg src fk.2 fk.1, resolve acc.1.cfg dst fk.2 fk.1 with
  | some os, some od => if od ∈ acc.2 then acc else (putByte od (shRead acc.1 os) acc.1, od :: acc.2)
  | _, _ => acc

/-- MIRROR: every distinct register byte of the source channel to the destination's, one bus write each; a channel
beyond `N_CH` is rejected before anything is written (R130). -/
def mirrorVoice (src dst : Nat) (s : State) : State :=
  if s.cfg.nCh ≤ src ∨ s.cfg.nCh ≤ dst then s
  else ((mirrorOperands s.cfg).foldl (mirrorTurn src dst) (s, [])).1

/-- SETFIELD (R124). -/
def execSetField (ch : Nibble) (slot : SlotIndex) (field : FieldIndex) (value : Byte) (s : State) :
    Host.Outcome State Fault Refusal :=
  admitted s (answer .none (writeField ch.toNat slot.toNat field.toNat value s))

/-- GETFIELD (R126). -/
def execGetField (ch : Nibble) (slot : SlotIndex) (field : FieldIndex) (s : State) :
    Host.Outcome State Fault Refusal :=
  admitted s (answer (readField ch.toNat slot.toNat field.toNat s) s)

/-- INIT_VOICE (R128). -/
def execInitVoice (ch : Nibble) (s : State) : Host.Outcome State Fault Refusal :=
  admitted s (answer .none (initVoice ch.toNat s))

/-- MIRROR (R130). -/
def execMirror (src dst : Nibble) (s : State) : Host.Outcome State Fault Refusal :=
  admitted s (answer .none (mirrorVoice src.toNat dst.toNat s))

end Sys2Proof.Machine
end

