-- ==== Sys2Proof/Machine/System.lean ====
section
/-! DEFINITION. The system operations: NOP, BUS_RESET and the five reserved codes (spec/43_system_ops.md). -/

namespace Sys2Proof.Machine

/-- NOP: no effect, no result (R140). -/
def execNop (s : State) : Host.Outcome State Fault Refusal := admitted s (answer .none s)

/-- BUS_RESET: `RST` on the bus, the shadow at `SHADOW_RESET`, the assembler untouched (R141). -/
def execBusReset (s : State) : Host.Outcome State Fault Refusal := admitted s (answer .none (resetBus s))

/-- What every reserved operation code does: the model refuses it (R142, U1). -/
def refuseReserved (op : Nibble) : Host.Outcome State Fault Refusal := .refused (.reservedOperation op)

/-- Reserved code 0xB (R142). -/
def execReservedB (_s : State) : Host.Outcome State Fault Refusal := refuseReserved 0xB

/-- Reserved code 0xC (R142). -/
def execReservedC (_s : State) : Host.Outcome State Fault Refusal := refuseReserved 0xC

/-- Reserved code 0xD (R142). -/
def execReservedD (_s : State) : Host.Outcome State Fault Refusal := refuseReserved 0xD

/-- Reserved code 0xE (R142). -/
def execReservedE (_s : State) : Host.Outcome State Fault Refusal := refuseReserved 0xE

/-- Reserved code 0xF (R142). -/
def execReservedF (_s : State) : Host.Outcome State Fault Refusal := refuseReserved 0xF

end Sys2Proof.Machine
end

