-- ==== Sys2Proof/Machine/Dispatch.lean ====
section
/-! DEFINITION. One arm per row of the opcode table. -/

namespace Sys2Proof.Machine

/-- What an operation does to the state. -/
def exec (i : Instr) (s : State) : Host.Outcome State Fault Refusal :=
  match i with
  | .nop => Sys2Proof.Machine.execNop s
  | .feed b => Sys2Proof.Machine.execFeed b s
  | .feedFail => Sys2Proof.Machine.execFeedFail s
  | .encFm key => Sys2Proof.Machine.execEncFm key s
  | .encPsg key => Sys2Proof.Machine.execEncPsg key s
  | .encNoise key => Sys2Proof.Machine.execEncNoise key s
  | .setField ch slot field value => Sys2Proof.Machine.execSetField ch slot field value s
  | .getField ch slot field => Sys2Proof.Machine.execGetField ch slot field s
  | .initVoice ch => Sys2Proof.Machine.execInitVoice ch s
  | .mirror src dst => Sys2Proof.Machine.execMirror src dst s
  | .busReset => Sys2Proof.Machine.execBusReset s
  | .reservedB => Sys2Proof.Machine.execReservedB s
  | .reservedC => Sys2Proof.Machine.execReservedC s
  | .reservedD => Sys2Proof.Machine.execReservedD s
  | .reservedE => Sys2Proof.Machine.execReservedE s
  | .reservedF => Sys2Proof.Machine.execReservedF s
  | .data d => Sys2Proof.Machine.execData d s
  | .noteOff channel => Sys2Proof.Machine.execNoteOff channel s
  | .noteOn channel => Sys2Proof.Machine.execNoteOn channel s
  | .polyPressure channel => Sys2Proof.Machine.execPolyPressure channel s
  | .controlChange channel => Sys2Proof.Machine.execControlChange channel s
  | .programChange channel => Sys2Proof.Machine.execProgramChange channel s
  | .channelPressure channel => Sys2Proof.Machine.execChannelPressure channel s
  | .pitchBend channel => Sys2Proof.Machine.execPitchBend channel s
  | .system sub => Sys2Proof.Machine.execSystem sub s

end Sys2Proof.Machine
end

