-- ==== Sys2Proof/Machine/Step.lean ====
section
/-! DEFINITION. One step: take the next item from outside and run its operation, atomically (R6, R44). -/

namespace Sys2Proof.Machine

/-- One operation: the next item presented, or the idle command word where nothing is (R140), taken and run. -/
def step (s : State) : Host.Outcome State Fault Refusal := exec (fetch s).1 (fetch s).2

/-- The state with an opcode-table row's bits presented as the next item; a width the table does not have presents
nothing. -/
def State.withFetchWord (s : State) (nbits w : Nat) : State :=
  match inputOfBits nbits w with
  | .ok x => present x s
  | .error _ => s

end Sys2Proof.Machine
end

