-- ==== Sys2Proof/Machine/HostLoop.lean ====
section
/-! DEFINITION. The documented environment: runs of operations (R44, R194), the host's boot sequence (R192), its main
loop (R150) and the Dispatcher (R151 to R158). It is software outside the block: it adds no state and no step, it says
which operations the host issues. Its tables, which the spec leaves open (R157, U14, U15), are arguments. -/

namespace Sys2Proof.Machine

/-- Operations in the order issued, each seeing the state the one before left (R44); the first stop ends the run. -/
def runOps : List Instr → State → Host.Outcome State Fault Refusal
  | [], s => .next s
  | i :: is, s =>
    match exec i s with
    | .next t => runOps is t
    | .fault r => .fault r
    | .refused r => .refused r

/-- What a run shows (R194): the results in order, and the state it ends in (for its registers, shadow and bus
history); `none` where an operation stops. -/
def runResults : List Instr → State → Option (List Result × State)
  | [], s => some ([], s)
  | i :: is, s =>
    match exec i s with
    | .next t => (runResults is t).map fun p => (t.result :: p.1, p.2)
    | _ => none

/-- The operations of the host's start-up, steps 3 and 4 of R192: the chip reset, then the default voice on every
channel. -/
def bootOps (c : Config) : List Instr :=
  .busReset :: (List.range c.nCh).map fun ch => .initVoice (BitVec.ofNat 4 ch)

/-- The other way of step 4 (R192): the default voice on one channel, then that channel mirrored to its siblings. R192
does not say which channel comes first: it is the argument `first`. That the siblings are all the other channels, taken
in ascending order, is the model's. DESIGN CHOICE, log entry 26; safe. -/
def bootOpsByMirror (c : Config) (first : Nibble) : List Instr :=
  .busReset :: .initVoice first ::
    (((List.range c.nCh).map (BitVec.ofNat 4)).filter (· != first)).map fun ch => .mirror first ch

/-- A SETFIELD the Dispatcher issues, all of it but its `ch` operand. -/
structure HostWrite where
  slot : SlotIndex
  field : FieldIndex
  value : Byte
  deriving DecidableEq, Repr

/-- What the spec leaves to the host (R157, U14, U15, N11, N16, N17): the three controller tables; how the 14-bit code
is cut into field writes and in which order; what channels 10 to 12 address; how a velocity becomes a level; which
writes take the four operators off and on together. On channels 0 to 5 the voice is the channel (R151), so `ch` is not
the tables'; slots, fields and values are, voice by voice (a Global enable field whose value names the voice is one
case). That a list depends on nothing else (no state, no earlier event) is the model's. DESIGN CHOICE, log entry 25;
unsafe. -/
structure DispatcherTables where
  ccGlobal : List (BitVec 7 × FieldIndex)
  ccChannel : List (BitVec 7 × FieldIndex)
  ccSlot : List (BitVec 7 × FieldIndex × SlotIndex)
  /-- The frequency fields of a voice from the 14-bit code. -/
  frequency : Nibble → BitVec 14 → List HostWrite
  /-- The frequency fields on channels 10 to 12, each with the `ch` it addresses, which the spec leaves open (N16). -/
  extended : Nibble → BitVec 14 → List (Nibble × HostWrite)
  /-- The level of a voice from the velocity. -/
  level : Nibble → BitVec 7 → List HostWrite
  /-- All four operators of a voice off. -/
  operatorsOff : Nibble → List HostWrite
  /-- All four operators of a voice on. -/
  operatorsOn : Nibble → List HostWrite

/-- What the Dispatcher does for one event: operations of the block, and deliveries to the tone/noise chip by the path
the source does not describe (R31, R153, N13). -/
inductive HostAction where
  | op (i : Instr)
  | psgPeriod (channel : Nibble) (period : BitVec 10)
  | psgNoise (code : BitVec 3)
  | psgLevel (channel : Nibble) (velocity : BitVec 7)
  | psgSilence (channel : Nibble)
  deriving DecidableEq, Repr

/-- What a MIDI channel selects (R151). -/
inductive ChannelTarget where
  | fmVoice
  | psgTone
  | psgNoise
  | fmExtended
  | nothing
  deriving DecidableEq, Repr

/-- The channel partition (R151). -/
def channelTarget (channel : Nibble) : ChannelTarget :=
  if channel.toNat ≤ 5 then .fmVoice
  else if channel.toNat ≤ 8 then .psgTone
  else if channel.toNat = 9 then .psgNoise
  else if channel.toNat ≤ 12 then .fmExtended
  else .nothing

/-- A write as a SETFIELD with this `ch` operand. -/
def hostWrite (channel : Nibble) (x : HostWrite) : HostAction := .op (.setField channel x.slot x.field x.value)

/-- The writes of one FM voice: the voice is the MIDI channel (R151), so every SETFIELD has it as its `ch`. -/
def voiceWrites (voice : Nibble) (ws : List HostWrite) : List HostAction := ws.map (hostWrite voice)

/-- The writes of extended FM addressing, each on the channel the host's table gives (N16). -/
def extendedWrites (ws : List (Nibble × HostWrite)) : List HostAction := ws.map fun x => hostWrite x.1 x.2

/-- `noteOn(channel, key, velocity)` (R152 to R154). On an FM voice the operators are disabled, then re-enabled, every
time (C4). On extended FM addressing the frequency only (R151; DEDUCED, log entry 20). -/
def dispatchNoteOn (t : DispatcherTables) (c : Config) (channel : Nibble) (key velocity : BitVec 7) :
    List HostAction :=
  match channelTarget channel with
  | .fmVoice =>
    .op (.encFm key) :: voiceWrites channel (t.frequency channel (fmCodeOf c key) ++ t.level channel velocity ++
      t.operatorsOff channel ++ t.operatorsOn channel)
  | .psgTone => [.op (.encPsg key), .psgPeriod channel (psgPeriodOf c key), .psgLevel channel velocity]
  | .psgNoise => [.op (.encNoise key), .psgNoise (noiseCodeOf c key), .psgLevel channel velocity]
  | .fmExtended => .op (.encFm key) :: extendedWrites (t.extended channel (fmCodeOf c key))
  | .nothing => []

/-- `noteOff(channel)` (R155): the key and the release velocity play no part; on an FM channel the operators of that
channel's voice. -/
def dispatchNoteOff (t : DispatcherTables) (channel : Nibble) : List HostAction :=
  match channelTarget channel with
  | .fmVoice => voiceWrites channel (t.operatorsOff channel)
  | .psgTone => [.psgSilence channel]
  | .psgNoise => [.psgSilence channel]
  | .fmExtended => []
  | .nothing => []

/-- An entry of one of the three controller tables (R156). -/
inductive ControllerEntry where
  | global (field : FieldIndex)
  | perChannel (field : FieldIndex)
  | perSlot (field : FieldIndex) (slot : SlotIndex)
  deriving DecidableEq, Repr

/-- The entry that handles a controller number: the global table's, else the per-channel one's, else the per-slot
one's; the first table that recognises it decides (R156). -/
def lookupController (t : DispatcherTables) (cc : BitVec 7) : Option ControllerEntry :=
  match t.ccGlobal.lookup cc, t.ccChannel.lookup cc, t.ccSlot.lookup cc with
  | some f, _, _ => some (.global f)
  | none, some f, _ => some (.perChannel f)
  | none, none, some p => some (.perSlot p.1 p.2)
  | none, none, none => none

/-- Whether a controller entry is for a channel's target (R151): extended FM addressing has "frequency/block only, no
level/operator control", so there neither a per-channel nor a per-slot parameter is set; a Global one belongs to no
channel. The spec says so of Note-Off (R155) and not of controllers: DEDUCED, log entry 20. -/
def controllerAdmitted : ChannelTarget → ControllerEntry → Bool
  | .fmVoice, _ | .psgTone, _ | .psgNoise, _ => true
  | .fmExtended, .global _ => true
  | .fmExtended, .perChannel _ | .fmExtended, .perSlot _ _ => false
  | .nothing, _ => false

/-- The SETFIELD of a controller entry: the field from the entry, the event's channel and value, the slot from a
per-slot entry (R156); operands the entry does not need are the event's channel and slot 0, log entry 20. -/
def controllerWrite (channel : Nibble) (value : BitVec 7) : ControllerEntry → Instr
  | .global f => .setField channel 0 f (value.setWidth 8)
  | .perChannel f => .setField channel 0 f (value.setWidth 8)
  | .perSlot f k => .setField channel k f (value.setWidth 8)

/-- `continuousController(channel, ccNumber, value)` (R156); an unrecognised number does nothing (R158). -/
def dispatchController (t : DispatcherTables) (channel : Nibble) (cc value : BitVec 7) : List HostAction :=
  match lookupController t cc with
  | some e => if controllerAdmitted (channelTarget channel) e then [.op (controllerWrite channel value e)] else []
  | none => []

/-- What the Dispatcher does for an event, by its kind (R150, R56). Kind 10 is never produced (R55). -/
def dispatchEvent (t : DispatcherTables) (c : Config) (e : MidiEvent) : List HostAction :=
  if e.kind = 0b01 then dispatchNoteOn t c e.channel e.data1 e.data2
  else if e.kind = 0b00 then dispatchNoteOff t e.channel
  else if e.kind = 0b11 then dispatchController t e.channel e.data1 e.data2
  else []

/-- The block's operations among the Dispatcher's actions, in order. -/
def blockOps (as : List HostAction) : List Instr :=
  as.filterMap fun a =>
    match a with
    | .op i => some i
    | _ => none

/-- What the host issues for an item of its byte source: FEED for a byte, FEED_FAIL for a read failure (R150). -/
def itemOp : Option Byte → Instr
  | some b => .feed b
  | none => .feedFail

/-- What the host does once FEED has answered: a completed event is dispatched to completion before the next item
(R150). -/
def dispatchResult (t : DispatcherTables) (s : State) : Host.Outcome State Fault Refusal :=
  match s.result with
  | .event e => runOps (blockOps (dispatchEvent t s.cfg e)) s
  | _ => .next s

/-- One turn of the main loop (R150). -/
def mainLoopTurn (t : DispatcherTables) (x : Option Byte) (s : State) : Host.Outcome State Fault Refusal :=
  match exec (itemOp x) s with
  | .next u => dispatchResult t u
  | .fault r => .fault r
  | .refused r => .refused r

end Sys2Proof.Machine
end

