-- ==== Sys2Proof/Safety.lean ====
section
/-! DEFINITION. What holds of every state a run reaches, in the terms claims use: the assembler's registers (R13), the
shadow invariant (R18), the shadow's form. -/

namespace Sys2Proof.Machine

/-- R13: in `AwaitStatus` the four data registers are 0; in `AwaitData` the status byte is an enabled one, the length
is its command's, the count lies between 1 and the length, and `d1` is 0 before the first data byte. -/
def Mpa.Legal (c : Config) (m : Mpa) : Prop :=
  match m.st with
  | .awaitStatus => m.status = 0 ∧ m.need = 0 ∧ m.cnt = 0 ∧ m.d1 = 0
  | .awaitData =>
    isStatus m.status = true ∧ commandNibble m.status ∈ c.en ∧ m.need = packetLength (commandNibble m.status) ∧
      1 ≤ m.cnt.toNat ∧ m.cnt.toNat < m.need.toNat ∧ (m.cnt = 1 → m.d1 = 0)

/-- The byte a bus history leaves in a chip register that the mirror tracks: the data of the last write to it after
the last `RST`, or the reset value where there is none (R18). -/
def lastWritten (reset : Byte) (r : ChipRegister) (bus : List BusEvent) : Byte :=
  bus.foldl (fun v e =>
    match e with
    | .rst => reset
    | .w b a d => if b = r.bank ∧ a = r.addr then d else v) reset

/-- R18: every shadow byte holds exactly the last value written to its register. -/
def ShadowExact (s : State) : Prop :=
  ∀ o, o < s.cfg.shadowSize → shRead s o = lastWritten s.cfg.shadowReset (chipRegister s.cfg o) s.bus

/-- The shadow is in canonical form and lists no offset beyond it (R10, R30). -/
def ShadowForm (s : State) : Prop :=
  Memory.wf (unlisted s) s.sh = true ∧ ∀ cell ∈ s.sh, cell.1 < s.cfg.shadowSize

/-- What holds of every state a run reaches. -/
def State.Inv (s : State) : Prop := s.mpa.Legal s.cfg ∧ ShadowForm s ∧ ShadowExact s

/-- The operations that touch the packet assembler (R80). -/
def isMidiOp : Instr → Bool
  | .feed _ | .feedFail | .data _ | .noteOff _ | .noteOn _ | .polyPressure _ | .controlChange _
  | .programChange _ | .channelPressure _ | .pitchBend _ | .system _ => true
  | .nop | .encFm _ | .encPsg _ | .encNoise _ | .setField _ _ _ _ | .getField _ _ _ | .initVoice _
  | .mirror _ _ | .busReset | .reservedB | .reservedC | .reservedD | .reservedE | .reservedF => false

/-- The reserved operation codes (R142). -/
def isReserved : Instr → Bool
  | .reservedB | .reservedC | .reservedD | .reservedE | .reservedF => true
  | .nop | .feed _ | .feedFail | .encFm _ | .encPsg _ | .encNoise _ | .setField _ _ _ _ | .getField _ _ _
  | .initVoice _ | .mirror _ _ | .busReset | .data _ | .noteOff _ | .noteOn _ | .polyPressure _
  | .controlChange _ | .programChange _ | .channelPressure _ | .pitchBend _ | .system _ => false

/-- The operations that may write the shadow and the bus (R10). -/
def isShadowWriter : Instr → Bool
  | .setField _ _ _ _ | .initVoice _ | .mirror _ _ | .busReset => true
  | .nop | .feed _ | .feedFail | .encFm _ | .encPsg _ | .encNoise _ | .getField _ _ _ | .reservedB | .reservedC
  | .reservedD | .reservedE | .reservedF | .data _ | .noteOff _ | .noteOn _ | .polyPressure _
  | .controlChange _ | .programChange _ | .channelPressure _ | .pitchBend _ | .system _ => false

/-- The operation does not write the field `field` of the register at offset `o`: no field write of it inside the
operation resolves there, no copy lands there, and the chip is not reset (R127). -/
def sparesField (c : Config) (field o : Nat) : Instr → Prop
  | .setField ch slot g _ => g.toNat = field → resolve c ch.toNat slot.toNat g.toNat ≠ some o
  | .initVoice ch => ch.toNat < c.nCh → ∀ e ∈ c.defaultVoice, e.field = field →
      resolve c ch.toNat e.slot e.field ≠ some o
  | .mirror src dst => src.toNat < c.nCh → ∀ f k d, c.fields[f]? = some d → d.scope ≠ .global → k < 4 →
      resolve c dst.toNat k f ≠ some o
  | .busReset | .reservedB | .reservedC | .reservedD | .reservedE | .reservedF => False
  | .nop | .feed _ | .feedFail | .encFm _ | .encPsg _ | .encNoise _ | .getField _ _ _ | .data _ | .noteOff _
  | .noteOn _ | .polyPressure _ | .controlChange _ | .programChange _ | .channelPressure _ | .pitchBend _
  | .system _ => True

end Sys2Proof.Machine
end

