-- ==== Sys2Proof/Certificates/Slice0/Obligations.lean ====
section
/-! DEFINITION. The statements for the provers. Each quantifies over every state, and so over every configuration the
state may hold (R7); a statement about the reference configuration names it. -/

open Sys2Proof Sys2Proof.Machine

/-! System operations -/

/-- R140: command words 0x0xxxxx are NOP; NOP reads and writes nothing and has no result. -/
def Obligations.NopHasNoEffect : Prop :=
  (∀ w : CommandWord, opcodeOf w = 0x0 → decodeCommand w = .nop) ∧
    ∀ s : State, s.cfg.wf = true → exec .nop s = .next { s with result := .none }

/-- R141: BUS_RESET appends `RST`, sets every shadow byte to `SHADOW_RESET`, and touches no assembler register. -/
def Obligations.BusResetClearsShadow : Prop :=
  (∀ w : CommandWord, opcodeOf w = 0xA → decodeCommand w = .busReset) ∧
    ∀ s : State, s.cfg.wf = true → ∃ t : State, exec .busReset s = .next t ∧ t.bus = s.bus ++ [.rst] ∧
      (∀ o, o < s.cfg.shadowSize → shRead t o = s.cfg.shadowReset) ∧
      t.mpa = s.mpa ∧ t.cfg = s.cfg ∧ t.pending = s.pending ∧ t.result = .none

/-- R142: operation codes 0xB to 0xF are refused, each under its own code. -/
def Obligations.ReservedCodesRefused : Prop :=
  (∀ (w : CommandWord) (s : State), 0xB ≤ (opcodeOf w).toNat →
      exec (decodeCommand w) s = .refused (.reservedOperation (opcodeOf w))) ∧
    ∀ s : State, exec .reservedB s = .refused (.reservedOperation 0xB) ∧
      exec .reservedC s = .refused (.reservedOperation 0xC) ∧
      exec .reservedD s = .refused (.reservedOperation 0xD) ∧
      exec .reservedE s = .refused (.reservedOperation 0xE) ∧
      exec .reservedF s = .refused (.reservedOperation 0xF)

/-! The packet assembler -/

/-- R81: FEED_FAIL aborts any packet in progress and gives no result. -/
def Obligations.FeedFailAbortsPacket : Prop :=
  (∀ w : CommandWord, opcodeOf w = 0x2 → decodeCommand w = .feedFail) ∧
    ∀ s : State, s.cfg.wf = true →
      exec .feedFail s = .next { s with mpa := ⟨.awaitStatus, 0, 0, 0, 0⟩, result := .none }

/-- R83: an enabled status byte begins a packet, whose length is 3 with every admitted `EN`; every channel nibble is
accepted. -/
def Obligations.EnabledStatusByteBeginsPacket : Prop :=
  ∀ (s : State) (b : Byte), s.cfg.wf = true → b.getLsbD 7 = true → commandNibble b ∈ s.cfg.en →
    packetLength (commandNibble b) = 3 ∧
    exec (.feed b) s =
      .next { s with mpa := ⟨.awaitData, b, packetLength (commandNibble b), 1, 0⟩, result := .none }

/-- R84: a status byte whose command is not enabled is discarded and leaves the assembler in `AwaitStatus`; data bytes
that follow it are dropped. -/
def Obligations.DisabledStatusByteDiscarded : Prop :=
  ∀ (s : State) (b d : Byte), s.cfg.wf = true → b.getLsbD 7 = true → commandNibble b ∉ s.cfg.en →
    d.getLsbD 7 = false →
    exec (.feed b) s = .next { s with mpa := ⟨.awaitStatus, 0, 0, 0, 0⟩, result := .none } ∧
      runOps [.feed b, .feed d] s = .next { s with mpa := ⟨.awaitStatus, 0, 0, 0, 0⟩, result := .none }

/-- R85: after a status byte the assembler depends on that byte alone: it is treated as `AwaitStatus` would treat it,
whatever packet was in progress, and nothing is emitted. -/
def Obligations.StatusByteForgetsThePacket : Prop :=
  ∀ (s : State) (m : Mpa) (b : Byte), s.cfg.wf = true → b.getLsbD 7 = true →
    ∃ t : State, exec (.feed b) s = .next t ∧ exec (.feed b) { s with mpa := m } = .next t ∧ t.result = .none ∧
      (commandNibble b ∈ s.cfg.en → t.mpa.st = .awaitData ∧ t.mpa.status = b) ∧
      (commandNibble b ∉ s.cfg.en → t.mpa.st = .awaitStatus)

/-- R86: a data byte in `AwaitStatus` changes no state and gives no result. -/
def Obligations.StrayDataByteDropped : Prop :=
  ∀ (s : State) (b : Byte), s.cfg.wf = true → b.getLsbD 7 = false → s.mpa.st = .awaitStatus →
    exec (.feed b) s = .next { s with result := .none }

/-- R87: a data byte of a packet still short becomes the first data byte, and the count goes up. -/
def Obligations.FirstDataByteKept : Prop :=
  ∀ (s : State) (b : Byte), s.cfg.wf = true → b.getLsbD 7 = false → s.mpa.st = .awaitData →
    s.mpa.cnt.toNat + 1 < s.mpa.need.toNat →
    exec (.feed b) s =
      .next { s with
        mpa := { s.mpa with d1 := b.extractLsb' 0 7, cnt := s.mpa.cnt + 1 }
        result := .none }

/-- R88: the data byte that completes a packet emits its event and returns the assembler to `AwaitStatus`. -/
def Obligations.LastDataByteEmitsEvent : Prop :=
  ∀ (s : State) (b : Byte), s.cfg.wf = true → b.getLsbD 7 = false → s.mpa.st = .awaitData →
    s.mpa.cnt.toNat + 1 = s.mpa.need.toNat →
    ∃ e : MidiEvent,
      exec (.feed b) s = .next { s with mpa := ⟨.awaitStatus, 0, 0, 0, 0⟩, result := .event e } ∧
      (commandNibble s.mpa.status = 0x8 → e.kind = 0b00) ∧
      (commandNibble s.mpa.status = 0x9 → e.kind = 0b01) ∧
      (commandNibble s.mpa.status = 0xB → e.kind = 0b11) ∧
      e.channel = s.mpa.status.extractLsb' 0 4 ∧ e.data1 = s.mpa.d1 ∧ e.data2 = b.extractLsb' 0 7

/-- R89: the complete transition table of the assembler, over every state of R13. -/
def Obligations.TransitionTable : Prop :=
  ∀ (s : State) (b : Byte), s.cfg.wf = true → s.mpa.Legal s.cfg →
    (s.mpa = Mpa.idle ∨ s.mpa.st = .awaitData ∧ s.mpa.cnt = 1 ∨ s.mpa.st = .awaitData ∧ s.mpa.cnt = 2) ∧
    (b.getLsbD 7 = true → commandNibble b ∈ s.cfg.en →
      exec (.feed b) s = .next { s with mpa := ⟨.awaitData, b, 3, 1, 0⟩, result := .none }) ∧
    (b.getLsbD 7 = true → commandNibble b ∉ s.cfg.en →
      exec (.feed b) s = .next { s with mpa := ⟨.awaitStatus, 0, 0, 0, 0⟩, result := .none }) ∧
    (b.getLsbD 7 = false → s.mpa.st = .awaitStatus →
      exec (.feed b) s = .next { s with mpa := ⟨.awaitStatus, 0, 0, 0, 0⟩, result := .none }) ∧
    (b.getLsbD 7 = false → s.mpa.st = .awaitData → s.mpa.cnt = 1 →
      exec (.feed b) s =
        .next { s with mpa := ⟨.awaitData, s.mpa.status, 3, 2, b.extractLsb' 0 7⟩, result := .none }) ∧
    (b.getLsbD 7 = false → s.mpa.st = .awaitData → s.mpa.cnt = 2 →
      exec (.feed b) s =
        .next { s with
          mpa := ⟨.awaitStatus, 0, 0, 0, 0⟩
          result := .event (eventOf s.mpa.status s.mpa.d1 b) }) ∧
    exec .feedFail s = .next { s with mpa := ⟨.awaitStatus, 0, 0, 0, 0⟩, result := .none }

/-- R90, R91, R92: a Note-Off, Note-On or Control-Change status byte begins a packet where its command is enabled and
is discarded where it is not; the completed packet emits its event. -/
def Obligations.EnabledCommandsAssemble : Prop :=
  ∀ (s : State) (n : Nibble) (k v : BitVec 7), s.cfg.wf = true →
    (0x8 ∈ s.cfg.en →
      exec (.noteOff n) s = .next { s with mpa := ⟨.awaitData, 0x8#4 ++ n, 3, 1, 0⟩, result := .none } ∧
      runOps [.noteOff n, .data k, .data v] s =
        .next { s with mpa := ⟨.awaitStatus, 0, 0, 0, 0⟩, result := .event ⟨0b00, n, k, v⟩ }) ∧
    (0x8 ∉ s.cfg.en →
      exec (.noteOff n) s = .next { s with mpa := ⟨.awaitStatus, 0, 0, 0, 0⟩, result := .none }) ∧
    (0x9 ∈ s.cfg.en →
      exec (.noteOn n) s = .next { s with mpa := ⟨.awaitData, 0x9#4 ++ n, 3, 1, 0⟩, result := .none } ∧
      runOps [.noteOn n, .data k, .data v] s =
        .next { s with mpa := ⟨.awaitStatus, 0, 0, 0, 0⟩, result := .event ⟨0b01, n, k, v⟩ }) ∧
    (0x9 ∉ s.cfg.en →
      exec (.noteOn n) s = .next { s with mpa := ⟨.awaitStatus, 0, 0, 0, 0⟩, result := .none }) ∧
    (0xB ∈ s.cfg.en →
      exec (.controlChange n) s = .next { s with mpa := ⟨.awaitData, 0xB#4 ++ n, 3, 1, 0⟩, result := .none } ∧
      runOps [.controlChange n, .data k, .data v] s =
        .next { s with mpa := ⟨.awaitStatus, 0, 0, 0, 0⟩, result := .event ⟨0b11, n, k, v⟩ }) ∧
    (0xB ∉ s.cfg.en →
      exec (.controlChange n) s = .next { s with mpa := ⟨.awaitStatus, 0, 0, 0, 0⟩, result := .none })

/-- R93: the five commands that are never enabled are discarded, with any packet in progress; a data byte after one is
dropped, so no event comes of them. -/
def Obligations.NeverEnabledCommandsDiscarded : Prop :=
  ∀ (s : State) (n : Nibble) (d : BitVec 7), s.cfg.wf = true →
    ∀ i ∈ [Instr.polyPressure n, .programChange n, .channelPressure n, .pitchBend n, .system n],
      exec i s = .next { s with mpa := ⟨.awaitStatus, 0, 0, 0, 0⟩, result := .none } ∧
      runOps [i, .data d] s = .next { s with mpa := ⟨.awaitStatus, 0, 0, 0, 0⟩, result := .none }

/-- R94: a data byte is dropped in `AwaitStatus`, kept while the packet is short, and otherwise completes the packet. -/
def Obligations.DataByteByState : Prop :=
  ∀ (s : State) (d : BitVec 7), s.cfg.wf = true →
    (s.mpa.st = .awaitStatus → exec (.data d) s = .next { s with result := .none }) ∧
    (s.mpa.st = .awaitData → s.mpa.cnt.toNat + 1 < s.mpa.need.toNat →
      exec (.data d) s = .next { s with mpa := { s.mpa with d1 := d, cnt := s.mpa.cnt + 1 }, result := .none }) ∧
    (s.mpa.st = .awaitData → s.mpa.cnt.toNat + 1 = s.mpa.need.toNat →
      exec (.data d) s =
        .next { s with
          mpa := ⟨.awaitStatus, 0, 0, 0, 0⟩
          result := .event ⟨s.mpa.status.extractLsb' 4 2, s.mpa.status.extractLsb' 0 4, s.mpa.d1, d⟩ })

/-- The FEED of a byte is what the MIDI row of that byte does: the MIDI rows of the opcode table are consulted inside
a FEED. That the rows are operations of their own is the model's form, log entry 7. -/
def Obligations.FeedRunsTheRowOfItsByte : Prop :=
  ∀ (s : State) (b : Byte), exec (.feed b) s = exec (decodeMidi b) s

/-- R99 property 1: from `AwaitStatus`, the three bytes of a Note-On give exactly one event, at the last byte, whatever
operations of the other units lie between them. -/
def Obligations.NoteOnSurvivesInterleaving : Prop :=
  ∀ (s : State) (n : Nibble) (k v : BitVec 7) (xs ys : List Instr), s.cfg.wf = true →
    s.mpa.st = .awaitStatus → 0x9 ∈ s.cfg.en →
    (∀ i ∈ xs ++ ys, isMidiOp i = false ∧ isReserved i = false) →
    ∃ (rs : List Result) (t : State),
      runResults (.feed (statusByte 0x9 n) :: (xs ++ .feed (dataByte k) :: (ys ++ [.feed (dataByte v)]))) s =
        some (rs ++ [.event ⟨0b01, n, k, v⟩], t) ∧
      (∀ r ∈ rs, ∀ e, r ≠ .event e) ∧ t.mpa = Mpa.idle

/-- The kind of an emitted event is one of the three of R55: 10 is never produced from a state of R13. -/
def Obligations.EmittedKindIsOneOfThree : Prop :=
  ∀ (i : Instr) (s t : State) (e : MidiEvent), s.mpa.Legal s.cfg → exec i s = .next t → t.result = .event e →
    e.kind = 0b00 ∨ e.kind = 0b01 ∨ e.kind = 0b11

/-- R55: the event word's four fields. -/
def Obligations.EventWordLayout : Prop :=
  ∀ e : MidiEvent, (eventWord e).extractLsb' 18 2 = e.kind ∧ (eventWord e).extractLsb' 14 4 = e.channel ∧
    (eventWord e).extractLsb' 7 7 = e.data1 ∧ (eventWord e).extractLsb' 0 7 = e.data2

/-- R65: the valid bit of a result word is 0 for `none` only, and the payload stands zero-extended below it. -/
def Obligations.ResultWordLayout : Prop :=
  resultWord .none = 0 ∧
    (∀ e, (resultWord (.event e)).toNat = 0x100000 + (eventWord e).toNat) ∧
    (∀ c, (resultWord (.fmCode c)).toNat = 0x100000 + c.toNat) ∧
    (∀ p, (resultWord (.psgPeriod p)).toNat = 0x100000 + p.toNat) ∧
    (∀ n, (resultWord (.noiseCode n)).toNat = 0x100000 + n.toNat) ∧
    ∀ v, (resultWord (.value v)).toNat = 0x100000 + v.toNat

/-! The frequency encoder -/

/-- R104, R57: the FM code of every key: the clamped block above the truncated mantissa, neither touching the other. -/
def Obligations.EncFmCode : Prop :=
  (∀ w : CommandWord, opcodeOf w = 0x3 → decodeCommand w = .encFm (w.extractLsb' 0 7)) ∧
    ∀ (s : State) (key : Key), s.cfg.wf = true →
      ∃ code : BitVec 14, exec (.encFm key) s = .next { s with result := .fmCode code } ∧
        ((code.extractLsb' 11 3).toNat : Int) =
          clamp ((key.toNat / 12 : Nat) + s.cfg.octaveOffset) 0 s.cfg.maxBlock ∧
        (code.extractLsb' 0 11).toNat = s.cfg.table.getD (key.toNat % 12) 0 * 512 / s.cfg.refDivisor

/-- R105: keys an octave apart have one mantissa; their blocks differ by 1 inside the clamp and agree beyond it; keys
60 and 72 in the reference configuration. -/
def Obligations.OctaveApartKeys : Prop :=
  fmCodeOf referenceConfig 60 = 0x2269 ∧ fmCodeOf referenceConfig 72 = 0x2A69 ∧
  ∀ (s : State) (key up : Key), s.cfg.wf = true → up.toNat = key.toNat + 12 →
    ∃ a b : BitVec 14, exec (.encFm key) s = .next { s with result := .fmCode a } ∧
      exec (.encFm up) s = .next { s with result := .fmCode b } ∧
      a.toNat % 2048 = b.toNat % 2048 ∧
      (0 ≤ (key.toNat / 12 : Nat) + s.cfg.octaveOffset →
        (key.toNat / 12 : Nat) + s.cfg.octaveOffset < s.cfg.maxBlock → b.toNat / 2048 = a.toNat / 2048 + 1) ∧
      ((up.toNat / 12 : Nat) + s.cfg.octaveOffset ≤ 0 → b.toNat / 2048 = a.toNat / 2048) ∧
      ((s.cfg.maxBlock : Int) ≤ (key.toNat / 12 : Nat) + s.cfg.octaveOffset → b.toNat / 2048 = a.toNat / 2048)

/-- R106: the tone-chip period: the rounded quotient of the shifted numerator and the table entry, halved exactly as
often as it takes to fit 10 bits. -/
def Obligations.EncPsgPeriod : Prop :=
  (∀ w : CommandWord, opcodeOf w = 0x4 → decodeCommand w = .encPsg (w.extractLsb' 0 7)) ∧
    ∀ (s : State) (key : Key) (entry num p : Nat), s.cfg.wf = true →
      entry = s.cfg.table.getD (key.toNat % 12) 0 →
      num = (if key.toNat / 12 ≤ s.cfg.psgRefOct then s.cfg.psgNum * 2 ^ (s.cfg.psgRefOct - key.toNat / 12)
        else s.cfg.psgNum / 2 ^ (key.toNat / 12 - s.cfg.psgRefOct)) →
      p = (num + entry / 2) / entry →
      ∃ (j : Nat) (period : BitVec 10), exec (.encPsg key) s = .next { s with result := .psgPeriod period } ∧
        period.toNat = p / 2 ^ j ∧ ∀ i, i < j → 1023 < p / 2 ^ i

/-- R111: the noise code is the table entry's of `key mod 12`, `fb ++ rate`; the octave plays no part. -/
def Obligations.EncNoiseCode : Prop :=
  (∀ w : CommandWord, opcodeOf w = 0x5 → decodeCommand w = .encNoise (w.extractLsb' 0 7)) ∧
    ∀ (s : State) (key : Key), s.cfg.wf = true →
      ∃ code : BitVec 3, exec (.encNoise key) s = .next { s with result := .noiseCode code } ∧
        (∀ e, s.cfg.noise[key.toNat % 12]? = some (some e) →
          code.extractLsb' 2 1 = feedbackCode e.fb ∧ code.extractLsb' 0 2 = rateCode e.rate) ∧
        ∀ key' : Key, key'.toNat % 12 = key.toNat % 12 →
          exec (.encNoise key') s = .next { s with result := .noiseCode code }

/-- The two entries R110 fixes, in every well-formed configuration (log entry 6): every C gives periodic 512, every
F sharp white 1024. -/
def Obligations.NoiseEntriesOfTheSource : Prop :=
  ∀ (s : State) (key : Key), s.cfg.wf = true →
    (key.toNat % 12 = 0 → exec (.encNoise key) s = .next { s with result := .noiseCode 0b000 }) ∧
    (key.toNat % 12 = 6 → exec (.encNoise key) s = .next { s with result := .noiseCode 0b101 })

/-- R100: the three operations read only the key and the eight constants, and write nothing but the result: the same
key gives the same code in any two states whose constants agree. -/
def Obligations.FrequencyOpsArePure : Prop :=
  ∀ (s u : State) (key : Key), s.cfg.wf = true → u.cfg.wf = true → s.cfg.table = u.cfg.table →
    s.cfg.noise = u.cfg.noise → s.cfg.octaveOffset = u.cfg.octaveOffset → s.cfg.maxBlock = u.cfg.maxBlock →
    s.cfg.refDivisor = u.cfg.refDivisor → s.cfg.psgNum = u.cfg.psgNum → s.cfg.psgRefOct = u.cfg.psgRefOct →
    s.cfg.psgMax = u.cfg.psgMax →
    ∀ i ∈ [Instr.encFm key, .encPsg key, .encNoise key],
      ∃ r : Result, exec i s = .next { s with result := r } ∧ exec i u = .next { u with result := r }

/-- The per-note values of R112 in the reference configuration, at the twelve keys from middle C. The reference
constants are the spec's own choice, log entry 3. -/
def Obligations.ReferenceNoteValues : Prop :=
  ((List.range 12).map fun n => mantissaOf referenceConfig (BitVec.ofNat 7 (60 + n))) =
      [617, 653, 692, 734, 777, 823, 872, 924, 979, 1038, 1099, 1165] ∧
    ((List.range 12).map fun n => (psgPeriodOf referenceConfig (BitVec.ofNat 7 (60 + n))).toNat) =
      [478, 451, 426, 402, 379, 358, 338, 319, 301, 284, 268, 253]

/-- R101 for the reference configuration: each table entry is the integer nearest to the scaled equal-tempered pitch,
with no tie. The reference pitch is the spec's own choice, log entry 3. -/
def Obligations.ReferenceTableIsEqualTempered : Prop :=
  ∀ n : Nat, n < 12 →
    |(referenceConfig.table.getD n 0 : ℝ) - 72 * 261.6255653005986 * (2 : ℝ) ^ ((n : ℝ) / 12)| < 1 / 2

/-! The shadow-register controller -/

/-- R123: what `resolve` answers, form by form; under a well-formed configuration its last reject never happens. -/
def Obligations.ResolveByScope : Prop :=
  ∀ (c : Config) (ch slot f : Nat), c.wf = true → slot < 4 →
    (c.nFields ≤ f → resolve c ch slot f = none) ∧
    ∀ d, c.fields[f]? = some d →
      (d.scope = .global → resolve c ch slot f = some d.base) ∧
      (d.scope ≠ .global → c.nCh ≤ ch → resolve c ch slot f = none) ∧
      (d.scope = .channel → ch < c.nCh →
        resolve c ch slot f = some (d.base + c.bankStride * (ch / c.chPerBank) + ch % c.chPerBank)) ∧
      (d.scope = .slot → ch < c.nCh →
        resolve c ch slot f =
          some (d.base + c.bankStride * (ch / c.chPerBank) + ch % c.chPerBank + c.slotStride * slot))

/-- Two accepted operand triples resolve to one offset exactly when they name one register: same base, same scope,
same operands as far as the scope uses them (R121 condition 3). -/
def Obligations.OneOffsetPerRegister : Prop :=
  ∀ (c : Config) (ch slot f ch' slot' g o : Nat) (d e : FieldDescriptor), c.wf = true → slot < 4 → slot' < 4 →
    c.fields[f]? = some d → c.fields[g]? = some e →
    resolve c ch slot f = some o → resolve c ch' slot' g = some o →
    d.base = e.base ∧ d.scope = e.scope ∧ (d.scope ≠ .global → ch = ch') ∧ (d.scope = .slot → slot = slot')

/-- R124: SETFIELD masks the value, merges it into the shadow byte, stores the byte and writes it to the bus, once, at
the register the address map gives; on reject it does nothing. -/
def Obligations.SetFieldWritesMirrorAndBus : Prop :=
  (∀ w : CommandWord, opcodeOf w = 0x6 → decodeCommand w =
      .setField (w.extractLsb' 16 4) (w.extractLsb' 14 2) (w.extractLsb' 8 6) (w.extractLsb' 0 8)) ∧
    ∀ (s : State) (ch : Nibble) (slot : SlotIndex) (field : FieldIndex) (value : Byte), s.cfg.wf = true →
      (resolve s.cfg ch.toNat slot.toNat field.toNat = none →
        exec (.setField ch slot field value) s = .next { s with result := .none }) ∧
      ∀ d o m new, s.cfg.fields[field.toNat]? = some d →
        resolve s.cfg ch.toNat slot.toNat field.toNat = some o → m = BitVec.ofNat 8 (2 ^ d.w - 1) →
        new = (shRead s o &&& ~~~(m <<< d.s)) ||| ((value &&& m) <<< d.s) →
        ∃ r, s.cfg.addrMap[o]? = some r ∧
          exec (.setField ch slot field value) s =
            .next { s with
              sh := memWrite s.cfg.shadowReset o new s.sh
              bus := s.bus ++ [.w r.bank r.addr new]
              result := .none }

/-- R125: an accepted SETFIELD changes the field's bits to the value's, no other bit of the byte and no other byte, and
lengthens the bus history by one write, whose data is the new byte. -/
def Obligations.SetFieldDisturbsNothingElse : Prop :=
  ∀ (s : State) (ch : Nibble) (slot : SlotIndex) (field : FieldIndex) (value : Byte) (d : FieldDescriptor) (o : Nat),
    s.cfg.wf = true → ShadowForm s → s.cfg.fields[field.toNat]? = some d →
    resolve s.cfg ch.toNat slot.toNat field.toNat = some o →
    ∃ t : State, exec (.setField ch slot field value) s = .next t ∧
      (∀ i, i < 8 → (shRead t o).getLsbD i =
        if d.s ≤ i ∧ i < d.s + d.w then value.getLsbD (i - d.s) else (shRead s o).getLsbD i) ∧
      (∀ o', o' ≠ o → shRead t o' = shRead s o') ∧
      (∃ bank addr, t.bus = s.bus ++ [.w bank addr (shRead t o)]) ∧
      t.mpa = s.mpa ∧ t.cfg = s.cfg ∧ t.pending = s.pending

/-- R126: GETFIELD answers the field's bits of the shadow byte, or nothing on reject, and changes no state. -/
def Obligations.GetFieldReadsTheShadow : Prop :=
  (∀ w : CommandWord, opcodeOf w = 0x7 →
      decodeCommand w = .getField (w.extractLsb' 16 4) (w.extractLsb' 14 2) (w.extractLsb' 8 6)) ∧
    ∀ (s : State) (ch : Nibble) (slot : SlotIndex) (field : FieldIndex), s.cfg.wf = true →
      (resolve s.cfg ch.toNat slot.toNat field.toNat = none →
        exec (.getField ch slot field) s = .next { s with result := .none }) ∧
      ∀ d o, s.cfg.fields[field.toNat]? = some d → resolve s.cfg ch.toNat slot.toNat field.toNat = some o →
        exec (.getField ch slot field) s =
          .next { s with result := .value ((shRead s o >>> d.s) &&& BitVec.ofNat 8 (2 ^ d.w - 1)) }

/-- R127: a field set is read back, reduced to its width, after any operations that do not write that field: writes of
other fields, even in the same byte, of the same field on other channels and slots, operations that write no field. -/
def Obligations.FieldRoundTrip : Prop :=
  ∀ (s : State) (ch : Nibble) (slot : SlotIndex) (field : FieldIndex) (value : Byte) (d : FieldDescriptor) (o : Nat)
    (xs : List Instr), s.cfg.wf = true → ShadowForm s → s.cfg.fields[field.toNat]? = some d →
    resolve s.cfg ch.toNat slot.toNat field.toNat = some o → (∀ i ∈ xs, sparesField s.cfg field.toNat o i) →
    ∃ t : State, runOps (.setField ch slot field value :: (xs ++ [.getField ch slot field])) s = .next t ∧
      t.result = .value (value &&& BitVec.ofNat 8 (2 ^ d.w - 1))

/-- R133: a rejected operation leaves shadow and bus exactly as they were and gives no result; the field writes inside
an accepted INIT_VOICE cannot reject. -/
def Obligations.RejectionIsAllOrNothing : Prop :=
  ∀ s : State, s.cfg.wf = true →
    (∀ ch slot field value, resolve s.cfg ch.toNat slot.toNat field.toNat = none →
      exec (.setField ch slot field value) s = .next { s with result := .none } ∧
      exec (.getField ch slot field) s = .next { s with result := .none }) ∧
    (∀ ch, s.cfg.nCh ≤ ch.toNat → exec (.initVoice ch) s = .next { s with result := .none }) ∧
    (∀ src dst, s.cfg.nCh ≤ src.toNat ∨ s.cfg.nCh ≤ dst.toNat →
      exec (.mirror src dst) s = .next { s with result := .none }) ∧
    ∀ ch e, ch < s.cfg.nCh → e ∈ s.cfg.defaultVoice → (resolve s.cfg ch e.slot e.field).isSome

/-- R128: INIT_VOICE on a channel in range is the default-voice list applied in order by SETFIELD, one bus event per
element; beyond `N_CH` it is rejected before anything is written. -/
def Obligations.InitVoiceIsItsFieldWrites : Prop :=
  (∀ w : CommandWord, opcodeOf w = 0x8 → decodeCommand w = .initVoice (w.extractLsb' 16 4)) ∧
    ∀ (s : State) (ch : Nibble), s.cfg.wf = true →
      (s.cfg.nCh ≤ ch.toNat → exec (.initVoice ch) s = .next { s with result := .none }) ∧
      (ch.toNat < s.cfg.nCh → ∃ t : State, exec (.initVoice ch) s = .next t ∧
        runOps (s.cfg.defaultVoice.map fun e =>
          .setField ch (BitVec.ofNat 2 e.slot) (BitVec.ofNat 6 e.field) e.value) { s with result := .none } = .next t ∧
        t.bus.length = s.bus.length + s.cfg.defaultVoice.length)

/-- INIT_VOICE changes no shadow byte but those its list's elements resolve to (R128, corner case), and no register,
configuration or pending item. -/
def Obligations.InitVoiceLeavesOtherBytes : Prop :=
  ∀ (s : State) (ch : Nibble), s.cfg.wf = true → ∃ t : State, exec (.initVoice ch) s = .next t ∧
    (∀ o, (∀ e ∈ s.cfg.defaultVoice, resolve s.cfg ch.toNat e.slot e.field ≠ some o) → shRead t o = shRead s o) ∧
    t.mpa = s.mpa ∧ t.cfg = s.cfg ∧ t.pending = s.pending ∧ t.result = .none

/-- R129 in the reference configuration: after INIT_VOICE on any channel, every detune/multiplier byte reads 0x71, and
nothing else of the sum is set. The tables are the spec's reference choice, log entry 3. -/
def Obligations.DefaultVoiceReadsBack : Prop :=
  ∀ ch : Nibble, ch.toNat < 6 → ∃ t : State, exec (.initVoice ch) State.reset = .next t ∧
    (∀ k, k < 4 → shRead t (16 * (ch.toNat / 3) + ch.toNat % 3 + 3 * k) = 0x71) ∧
    shRead t (12 + 16 * (ch.toNat / 3) + ch.toNat % 3) = 0x07

/-- R130: MIRROR copies every distinct non-global register byte of the source channel to the destination's, changes no
other byte, and writes each copied byte to the bus once, in order of first appearance; a channel out of range rejects. -/
def Obligations.MirrorCopiesEveryRegister : Prop :=
  (∀ w : CommandWord, opcodeOf w = 0x9 → decodeCommand w = .mirror (w.extractLsb' 16 4) (w.extractLsb' 12 4)) ∧
    ∀ (s : State) (src dst : Nibble), s.cfg.wf = true → ShadowForm s →
      (s.cfg.nCh ≤ src.toNat ∨ s.cfg.nCh ≤ dst.toNat →
        exec (.mirror src dst) s = .next { s with result := .none }) ∧
      (src.toNat < s.cfg.nCh → dst.toNat < s.cfg.nCh → ∃ t : State, exec (.mirror src dst) s = .next t ∧
        (∀ f k d os od, s.cfg.fields[f]? = some d → d.scope ≠ .global → k < 4 →
          resolve s.cfg src.toNat k f = some os → resolve s.cfg dst.toNat k f = some od →
          shRead t od = shRead s os) ∧
        (∀ o, (∀ f k d, s.cfg.fields[f]? = some d → d.scope ≠ .global → k < 4 →
          resolve s.cfg dst.toNat k f ≠ some o) → shRead t o = shRead s o) ∧
        t.bus = s.bus ++ (((mirrorOperands s.cfg).filterMap fun fk =>
          resolve s.cfg dst.toNat fk.2 fk.1).eraseDups.map fun o =>
            .w (chipRegister s.cfg o).bank (chipRegister s.cfg o).addr (shRead t o)) ∧
        t.mpa = s.mpa ∧ t.cfg = s.cfg ∧ t.pending = s.pending ∧ t.result = .none)

/-- R131: every field the default voice names reads back the same on a channel, whether the channel was initialised or
its sibling was and then mirrored to it. -/
def Obligations.MirrorAgreesWithInitVoice : Prop :=
  ∀ (s : State) (src dst : Nibble), s.cfg.wf = true → ShadowForm s → src.toNat < s.cfg.nCh → dst.toNat < s.cfg.nCh →
    ∃ t u : State, runOps [.initVoice dst] s = .next t ∧ runOps [.initVoice src, .mirror src dst] s = .next u ∧
      ∀ e ∈ s.cfg.defaultVoice,
        readField dst.toNat e.slot e.field t = readField dst.toNat e.slot e.field u

/-- A shadow byte written is read back, every other byte is left alone, and the memory's canonical form is kept. -/
def Obligations.ShadowWriteThenRead : Prop :=
  ∀ (u v : Byte) (a : Nat) (m : Memory), Memory.wf u m = true →
    memRead u a (memWrite u a v m) = v ∧ (∀ b, b ≠ a → memRead u b (memWrite u a v m) = memRead u b m) ∧
      Memory.wf u (memWrite u a v m) = true

/-! Frames and independence of the units -/

/-- The packet assembler's operations change only its registers and the result (R80). -/
def Obligations.PacketOpsTouchOnlyTheAssembler : Prop :=
  ∀ (i : Instr) (s t : State), isMidiOp i = true → exec i s = .next t →
    t = { s with mpa := t.mpa, result := t.result }

/-- NOP, the frequency operations and GETFIELD change only the result (R100, R126, R140). -/
def Obligations.ReadersChangeOnlyTheResult : Prop :=
  ∀ (i : Instr) (s t : State), isMidiOp i = false → isShadowWriter i = false → exec i s = .next t →
    t = { s with result := t.result }

/-- The operations that write the shadow touch no assembler register (R120, R141). -/
def Obligations.ShadowOpsLeaveTheAssembler : Prop :=
  ∀ (i : Instr) (s t : State), isShadowWriter i = true → exec i s = .next t →
    t = { s with sh := t.sh, bus := t.bus, result := t.result }

/-- The units are independent (R3): what the assembler's operations do to its registers and answer does not depend on
shadow and bus, and what the other operations do to shadow and bus and answer does not depend on its registers. -/
def Obligations.UnitsAreIndependent : Prop :=
  ∀ (i : Instr) (s t u v : State), s.cfg = u.cfg → exec i s = .next t → exec i u = .next v →
    (isMidiOp i = true → s.mpa = u.mpa → t.mpa = v.mpa ∧ t.result = v.result) ∧
    (isMidiOp i = false → s.sh = u.sh → s.bus = u.bus → t.sh = v.sh ∧ t.bus = v.bus ∧ t.result = v.result)

/-- No operation writes the configuration, and step keeps it (R48, R143). -/
def Obligations.ConfigurationNeverChanges : Prop :=
  (∀ (i : Instr) (s t : State), exec i s = .next t → t.cfg = s.cfg) ∧
    ∀ s t : State, step s = .next t → t.cfg = s.cfg

/-- The bus history only grows at its end (R44, R143), and only by the operations that write the shadow (R10). -/
def Obligations.BusHistoryOnlyGrows : Prop :=
  ∀ (i : Instr) (s t : State), exec i s = .next t →
    ∃ es, t.bus = s.bus ++ es ∧ (isShadowWriter i = false → es = [])

/-! Faults, refusals, completion -/

/-- R170: every admitted operation returns a next state: no operation faults, and under a well-formed configuration
only the reserved codes give none. -/
def Obligations.AdmittedOperationsComplete : Prop :=
  (∀ (i : Instr) (s : State) (r : Fault), exec i s ≠ .fault r) ∧
    ∀ (i : Instr) (s : State), s.cfg.wf = true → isReserved i = false → ∃ t, exec i s = .next t

/-- A configuration that is not `Config.wf` is refused, by every operation but the reserved codes, which are refused in
any case (R103, R121, R122, U2 to U4). The model's own here: that the refusal comes at each operation (log entry 13),
and that the pinned noise entries (log entry 6) and the range of `base` (log entry 14) are among the conditions. -/
def Obligations.IllFormedConfigurationRefused : Prop :=
  ∀ (i : Instr) (s : State), s.cfg.wf = false → isReserved i = false → exec i s = .refused .illFormedConfiguration

/-! Invariants and reset -/

/-- R27: the state after reset. -/
def Obligations.ResetValues : Prop :=
  State.reset.mpa = ⟨.awaitStatus, 0, 0, 0, 0⟩ ∧
    (∀ o, o < State.reset.cfg.shadowSize → shRead State.reset o = State.reset.cfg.shadowReset) ∧
    State.reset.cfg.shadowReset = 0x00 ∧ State.reset.bus = []

/-- The invariant holds at reset: the registers of R13, the shadow's form, the shadow invariant of R18. -/
def Obligations.ResetMeetsTheInvariant : Prop := State.reset.Inv

/-- Every step keeps the invariant: the registers stay those of R13, the shadow keeps its form, and every shadow byte
holds exactly the last value written to its register (R18). -/
def Obligations.StepKeepsTheInvariant : Prop :=
  ∀ s t : State, s.Inv → step s = .next t → t.Inv

/-! Decoding, encoding, stepping -/

/-- A step takes the next item presented and runs the operation it decodes to; with nothing presented the command port
is idle and reads as NOP (R140; log entry 1). -/
def Obligations.StepRunsTheDecodedItem : Prop :=
  (∀ (s : State) (x : Input) (rest : List Input), s.pending = x :: rest →
      step s = exec (decodeInput x) { s with pending := rest }) ∧
    ∀ s : State, s.pending = [] → step s = exec .nop s

/-- Decoding what encoding gives returns the operation, every operand included. -/
def Obligations.DecodeOfEncode : Prop := ∀ i : Instr, decodeInput (encode i) = i

/-- R69: every command word matches exactly one CMD row and every byte exactly one MIDI row, and the decoder gives that
row's operation. -/
def Obligations.ExactlyOneRowMatches : Prop :=
  (∀ w : CommandWord, (commandRows.filter fun r => r.matches w.toNat).map OpcodeRow.mnemonic =
      [(decodeCommand w).mnemonic]) ∧
    ∀ b : Byte, (midiRows.filter fun r => r.matches b.toNat).map OpcodeRow.mnemonic = [(decodeMidi b).mnemonic]

/-- Words written out from R62 and R63, ignored bits set in some, decode to their operations. -/
def Obligations.DecodedWords : Prop :=
  decodeCommand 0x0FFFFF = .nop ∧ decodeCommand 0x1ABC90 = .feed 0x90 ∧ decodeCommand 0x2FFFFF = .feedFail ∧
    decodeCommand 0x3FFFBC = .encFm 60 ∧ decodeCommand 0x4000C5 = .encPsg 69 ∧
    decodeCommand 0x5123C2 = .encNoise 66 ∧ decodeCommand 0x6FC401 = .setField 15 3 4 1 ∧
    decodeCommand 0x7000FF = .getField 0 0 0 ∧ decodeCommand 0x84FFFF = .initVoice 4 ∧
    decodeCommand 0x901FFF = .mirror 0 1 ∧ decodeCommand 0xAFFFFF = .busReset ∧
    decodeMidi 0x3C = .data 0x3C ∧ decodeMidi 0x93 = .noteOn 3 ∧ decodeMidi 0xF8 = .system 8

/-! The documented environment -/

/-- R158: a Control-Change whose number is in none of the host's tables leaves shadow and bus unchanged: the main
loop's turn that completes it only emits the event. -/
def Obligations.UnrecognisedControllerDoesNothing : Prop :=
  ∀ (h : DispatcherTables) (s : State) (value : BitVec 7), s.cfg.wf = true → s.mpa.st = .awaitData →
    s.mpa.cnt.toNat + 1 = s.mpa.need.toNat → commandNibble s.mpa.status = 0xB → lookupController h s.mpa.d1 = none →
    mainLoopTurn h (some (dataByte value)) s =
      .next { s with
        mpa := ⟨.awaitStatus, 0, 0, 0, 0⟩
        result := .event ⟨0b11, s.mpa.status.extractLsb' 0 4, s.mpa.d1, value⟩ }

/-- The channel partition of R151: the target of each of the sixteen channels; whatever is written for an event on an
FM voice is written with that voice as its channel; an event on channels 13 to 15 is dropped. That a Note-On on
channels 10 to 12 issues the frequency writes only is the model's reading, log entry 20, and the form of those writes
the model's choice, log entry 25. -/
def Obligations.ChannelPartition : Prop :=
  (∀ ch : Nibble, (ch.toNat ≤ 5 → channelTarget ch = .fmVoice) ∧
      (6 ≤ ch.toNat → ch.toNat ≤ 8 → channelTarget ch = .psgTone) ∧
      (ch.toNat = 9 → channelTarget ch = .psgNoise) ∧
      (10 ≤ ch.toNat → ch.toNat ≤ 12 → channelTarget ch = .fmExtended) ∧
      (13 ≤ ch.toNat → channelTarget ch = .nothing)) ∧
    ∀ (h : DispatcherTables) (c : Config) (e : MidiEvent),
      (e.channel.toNat ≤ 5 → ∀ ch slot field value,
        .op (.setField ch slot field value) ∈ dispatchEvent h c e → ch = e.channel) ∧
      (e.kind = 0b01 → 10 ≤ e.channel.toNat → e.channel.toNat ≤ 12 →
        dispatchEvent h c e = .op (.encFm e.data1) :: extendedWrites (h.extended e.channel (fmCodeOf c e.data1))) ∧
      (13 ≤ e.channel.toNat → dispatchEvent h c e = [])

/-- R156: the three controller tables are tried in fixed order, and the first that knows the number becomes one
SETFIELD of the event's value on its channel. On channels 10 to 12 a per-channel or per-slot number writes nothing
("no level/operator control", R151); that reading, the Global writes there and on the tone and noise channels, and
slot 0 are the model's, log entry 20. -/
def Obligations.ControllerTablesInOrder : Prop :=
  ∀ (h : DispatcherTables) (ch : Nibble) (cc value : BitVec 7) (f : FieldIndex) (k : SlotIndex), ch.toNat ≤ 12 →
    (h.ccGlobal.lookup cc = some f →
      dispatchController h ch cc value = [.op (.setField ch 0 f (value.setWidth 8))]) ∧
    (h.ccGlobal.lookup cc = none → h.ccChannel.lookup cc = some f →
      dispatchController h ch cc value =
        if ch.toNat ≤ 9 then [.op (.setField ch 0 f (value.setWidth 8))] else []) ∧
    (h.ccGlobal.lookup cc = none → h.ccChannel.lookup cc = none → h.ccSlot.lookup cc = some (f, k) →
      dispatchController h ch cc value =
        if ch.toNat ≤ 9 then [.op (.setField ch k f (value.setWidth 8))] else [])

/-- A Note-Off silences its channel whatever key it names: on an FM voice the operators-off writes, on that voice;
silence on the tone and noise channels; nothing on channels 10 to 12 (R155). Which slots, fields and values the writes
have is the host's, log entry 25. -/
def Obligations.NoteOffSilencesItsChannel : Prop :=
  ∀ (h : DispatcherTables) (c : Config) (e : MidiEvent), e.kind = 0b00 →
    (e.channel.toNat ≤ 5 → dispatchEvent h c e =
      (h.operatorsOff e.channel).map fun x => .op (.setField e.channel x.slot x.field x.value)) ∧
    (6 ≤ e.channel.toNat → e.channel.toNat ≤ 9 → dispatchEvent h c e = [.psgSilence e.channel]) ∧
    (10 ≤ e.channel.toNat → dispatchEvent h c e = [])

/-- The boot sequence of R192 from reset, in the reference configuration (log entry 3): every detune/multiplier byte
0x71, every feedback/algorithm byte 0x07, 61 bus events, the first one `RST` (P1). -/
def Obligations.BootSetsEveryVoice : Prop :=
  ∃ t : State, runOps (bootOps State.reset.cfg) State.reset = .next t ∧ t.bus.length = 61 ∧ t.bus.head? = some .rst ∧
    t.mpa = Mpa.idle ∧
    ∀ o, o < 32 → shRead t o = if o % 16 < 12 then 0x71 else if o % 16 < 15 then 0x07 else 0x00
end

