-- ==== Sys2Proof/Laws/Bits.lean ====
section
/-! SUPPORT. Bit by bit: what a field's mask, insertion and extraction do to a byte (R124 to R126). -/

namespace Sys2Proof.Machine

theorem fieldMask_getLsbD {w i : Nat} (hi : i < 8) : (fieldMask w).getLsbD i = decide (i < w) := by
  rw [fieldMask, BitVec.getLsbD_ofNat, Nat.testBit_two_pow_sub_one]
  simp [hi]

/-- The bits of a byte after a field is inserted: the field's from the value, the others as they were (R125). -/
theorem insertField_getLsbD {d : FieldDescriptor} {value old : Byte} {i : Nat} (hd : d.w + d.s ≤ 8) (hi : i < 8) :
    (insertField d value old).getLsbD i =
      if d.s ≤ i ∧ i < d.s + d.w then value.getLsbD (i - d.s) else old.getLsbD i := by
  have h8 : i - d.s < 8 := by omega
  simp only [insertField, BitVec.getLsbD_or, BitVec.getLsbD_and, BitVec.getLsbD_not, BitVec.getLsbD_shiftLeft, hi,
    decide_true, Bool.true_and, fieldMask_getLsbD h8]
  by_cases h1 : i < d.s
  · simp [h1, show ¬(d.s ≤ i) by omega]
  · by_cases h2 : i - d.s < d.w
    · simp [h1, h2, show d.s ≤ i by omega, show i < d.s + d.w by omega]
    · simp [h1, h2, show ¬(i < d.s + d.w) by omega]

/-- The bits of a field's value (R126). -/
theorem extractField_getLsbD {d : FieldDescriptor} {byte : Byte} {i : Nat} (hi : i < 8) :
    (extractField d byte).getLsbD i = (byte.getLsbD (d.s + i) && decide (i < d.w)) := by
  simp [extractField, fieldMask_getLsbD hi]

/-- A field inserted is read back, reduced to its width (R127, R64). -/
theorem extract_insert_self {d : FieldDescriptor} (value old : Byte) (hd : d.w + d.s ≤ 8) :
    extractField d (insertField d value old) = value &&& fieldMask d.w := by
  refine BitVec.eq_of_getLsbD_eq fun i hi => ?_
  rw [extractField_getLsbD hi, BitVec.getLsbD_and, fieldMask_getLsbD hi]
  by_cases hw : i < d.w
  · rw [insertField_getLsbD hd (by omega), if_pos (by omega)]
    simp
  · simp [hw]

/-- Inserting a field leaves a disjoint field of the byte as it was (R125, R127). -/
theorem extract_insert_disjoint {d e : FieldDescriptor} (value old : Byte) (hd : d.w + d.s ≤ 8) (he : e.w + e.s ≤ 8)
    (hde : d.s + d.w ≤ e.s ∨ e.s + e.w ≤ d.s) : extractField e (insertField d value old) = extractField e old := by
  refine BitVec.eq_of_getLsbD_eq fun i hi => ?_
  rw [extractField_getLsbD hi, extractField_getLsbD hi]
  by_cases hw : i < e.w
  · rw [insertField_getLsbD hd (by omega), if_neg (by omega)]
  · simp [hw]

end Sys2Proof.Machine
end

