-- ==== Sys2Proof/Laws/State.lean ====
section
/-! SUPPORT. One lemma per field and update of the state, so that no proof unfolds a record update. -/

namespace Sys2Proof.Machine

variable (s : State) (r : Result) (o : Nat) (v : Byte) (x : Input) (b : Byte)

@[simp] theorem answer_mpa : (answer r s).mpa = s.mpa := rfl
@[simp] theorem answer_sh : (answer r s).sh = s.sh := rfl
@[simp] theorem answer_bus : (answer r s).bus = s.bus := rfl
@[simp] theorem answer_cfg : (answer r s).cfg = s.cfg := rfl
@[simp] theorem answer_result : (answer r s).result = r := rfl
@[simp] theorem answer_pending : (answer r s).pending = s.pending := rfl

@[simp] theorem putByte_mpa : (putByte o v s).mpa = s.mpa := rfl
@[simp] theorem putByte_sh : (putByte o v s).sh = memWrite s.cfg.shadowReset o v s.sh := rfl
@[simp] theorem putByte_bus : (putByte o v s).bus =
    s.bus ++ [.w (chipRegister s.cfg o).bank (chipRegister s.cfg o).addr v] := rfl
@[simp] theorem putByte_cfg : (putByte o v s).cfg = s.cfg := rfl
@[simp] theorem putByte_result : (putByte o v s).result = s.result := rfl
@[simp] theorem putByte_pending : (putByte o v s).pending = s.pending := rfl

@[simp] theorem resetBus_mpa : (resetBus s).mpa = s.mpa := rfl
@[simp] theorem resetBus_sh : (resetBus s).sh = [] := rfl
@[simp] theorem resetBus_bus : (resetBus s).bus = s.bus ++ [.rst] := rfl
@[simp] theorem resetBus_cfg : (resetBus s).cfg = s.cfg := rfl
@[simp] theorem resetBus_result : (resetBus s).result = s.result := rfl
@[simp] theorem resetBus_pending : (resetBus s).pending = s.pending := rfl

@[simp] theorem feedByte_mpa : (feedByte b s).mpa = (feedMpa s.cfg b s.mpa).1 := rfl
@[simp] theorem feedByte_sh : (feedByte b s).sh = s.sh := rfl
@[simp] theorem feedByte_bus : (feedByte b s).bus = s.bus := rfl
@[simp] theorem feedByte_cfg : (feedByte b s).cfg = s.cfg := rfl
@[simp] theorem feedByte_result : (feedByte b s).result = (feedMpa s.cfg b s.mpa).2 := rfl
@[simp] theorem feedByte_pending : (feedByte b s).pending = s.pending := rfl

@[simp] theorem abortPacket_mpa : (abortPacket s).mpa = Mpa.idle := rfl
@[simp] theorem abortPacket_sh : (abortPacket s).sh = s.sh := rfl
@[simp] theorem abortPacket_bus : (abortPacket s).bus = s.bus := rfl
@[simp] theorem abortPacket_cfg : (abortPacket s).cfg = s.cfg := rfl
@[simp] theorem abortPacket_result : (abortPacket s).result = .none := rfl
@[simp] theorem abortPacket_pending : (abortPacket s).pending = s.pending := rfl

@[simp] theorem present_mpa : (present x s).mpa = s.mpa := rfl
@[simp] theorem present_sh : (present x s).sh = s.sh := rfl
@[simp] theorem present_bus : (present x s).bus = s.bus := rfl
@[simp] theorem present_cfg : (present x s).cfg = s.cfg := rfl
@[simp] theorem present_result : (present x s).result = s.result := rfl
@[simp] theorem present_pending : (present x s).pending = x :: s.pending := rfl

@[simp] theorem reset_mpa : State.reset.mpa = Mpa.idle := rfl
@[simp] theorem reset_sh : State.reset.sh = [] := rfl
@[simp] theorem reset_bus : State.reset.bus = [] := rfl
@[simp] theorem reset_cfg : State.reset.cfg = referenceConfig := rfl
@[simp] theorem reset_result : State.reset.result = .none := rfl
@[simp] theorem reset_pending : State.reset.pending = [] := rfl

@[simp] theorem unlisted_eq : unlisted s = s.cfg.shadowReset := rfl

end Sys2Proof.Machine
end

