-- ==== Sys2Proof/Laws/Exec.lean ====
section
/-! SUPPORT. What exec and step can do, said once: every operation but a reserved one is admitted with its effect, a
reserved one is refused. -/

namespace Sys2Proof.Machine

theorem admitted_of_wf {s : State} (h : s.cfg.wf = true) (t : State) : admitted s t = .next t := by
  simp [admitted, h]

theorem admitted_eq_next {s t u : State} : admitted s t = .next u ↔ s.cfg.wf = true ∧ t = u := by
  by_cases h : s.cfg.wf = true <;> simp [admitted, h]

theorem admitted_of_not_wf {s : State} (h : s.cfg.wf = false) (t : State) :
    admitted s t = .refused .illFormedConfiguration := by
  simp [admitted, h]

/-- The state an operation leaves where it runs; a reserved code has none and is given the state itself. -/
def effect (i : Instr) (s : State) : State :=
  match i with
  | .nop => answer .none s
  | .feed b => feedByte b s
  | .feedFail => abortPacket s
  | .encFm key => answer (.fmCode (fmCodeOf s.cfg key)) s
  | .encPsg key => answer (.psgPeriod (psgPeriodOf s.cfg key)) s
  | .encNoise key => answer (.noiseCode (noiseCodeOf s.cfg key)) s
  | .setField ch slot field value => answer .none (writeField ch.toNat slot.toNat field.toNat value s)
  | .getField ch slot field => answer (readField ch.toNat slot.toNat field.toNat s) s
  | .initVoice ch => answer .none (initVoice ch.toNat s)
  | .mirror src dst => answer .none (mirrorVoice src.toNat dst.toNat s)
  | .busReset => answer .none (resetBus s)
  | .reservedB | .reservedC | .reservedD | .reservedE | .reservedF => s
  | .data d => feedByte (dataByte d) s
  | .noteOff channel => feedByte (statusByte 0x8 channel) s
  | .noteOn channel => feedByte (statusByte 0x9 channel) s
  | .polyPressure channel => feedByte (statusByte 0xA channel) s
  | .controlChange channel => feedByte (statusByte 0xB channel) s
  | .programChange channel => feedByte (statusByte 0xC channel) s
  | .channelPressure channel => feedByte (statusByte 0xD channel) s
  | .pitchBend channel => feedByte (statusByte 0xE channel) s
  | .system sub => feedByte (statusByte 0xF sub) s

/-- An operation that is not reserved is admitted with its effect. -/
theorem exec_of_not_reserved {i : Instr} (h : isReserved i = false) (s : State) :
    exec i s = admitted s (effect i s) := by
  cases i <;> first | rfl | simp [isReserved] at h

/-- A reserved operation is refused. -/
theorem exec_of_reserved {i : Instr} (h : isReserved i = true) (s : State) :
    ∃ op, exec i s = .refused (.reservedOperation op) := by
  cases i <;> first | (simp [isReserved] at h; done) | exact ⟨_, rfl⟩

/-- Under a well-formed configuration an operation that is not reserved completes with its effect. -/
theorem exec_of_wf {i : Instr} {s : State} (hi : isReserved i = false) (hs : s.cfg.wf = true) :
    exec i s = .next (effect i s) := by
  rw [exec_of_not_reserved hi, admitted_of_wf hs]

/-- The inversion of exec: an operation that gives a next state is not reserved, the configuration is well-formed, and
the state is the operation's effect. -/
theorem exec_eq_next {i : Instr} {s t : State} :
    exec i s = .next t ↔ isReserved i = false ∧ s.cfg.wf = true ∧ effect i s = t := by
  cases h : isReserved i with
  | false => simp [exec_of_not_reserved h, admitted_eq_next]
  | true => obtain ⟨op, ho⟩ := exec_of_reserved h s; simp [ho]

theorem step_of_pending {s : State} {x : Input} {rest : List Input} (h : s.pending = x :: rest) :
    step s = exec (decodeInput x) { s with pending := rest } := by
  simp [step, fetch, h]

theorem step_of_idle {s : State} (h : s.pending = []) : step s = exec .nop s := by
  simp only [step, fetch, h]
  rfl

/-- The inversion of step: it runs some operation on the state, the taken item aside. -/
theorem step_eq_next {s t : State} (h : step s = .next t) :
    ∃ i rest, exec i { s with pending := rest } = .next t := by
  cases hp : s.pending with
  | nil => exact ⟨.nop, [], by rw [step_of_idle hp] at h; rw [← h, ← hp]⟩
  | cons x rest => exact ⟨decodeInput x, rest, by rw [step_of_pending hp] at h; exact h⟩

theorem runOps_cons_of_wf {i : Instr} {is : List Instr} {s : State} (hi : isReserved i = false)
    (hs : s.cfg.wf = true) : runOps (i :: is) s = runOps is (effect i s) := by
  simp [runOps, exec_of_wf hi hs]

theorem runOps_append (is js : List Instr) (s : State) :
    runOps (is ++ js) s =
      match runOps is s with
      | .next t => runOps js t
      | .fault r => .fault r
      | .refused r => .refused r := by
  induction is generalizing s with
  | nil => rfl
  | cons i is ih =>
    simp only [List.cons_append, runOps]
    cases exec i s with
    | next t => exact ih t
    | fault r => rfl
    | refused r => rfl

end Sys2Proof.Machine
end

