-- ==== Sys2Proof/Laws/WellFormed.lean ====
section
/-! SUPPORT. What a well-formed configuration gives, in the spec's own words (R103, R121, R122). -/

namespace Sys2Proof.Machine

theorem allPairs_iff {α : Type} {r : α → α → Bool} {l : List α} :
    allPairs r l = true ↔ l.Pairwise fun a b => r a b = true := by
  induction l with
  | nil => simp [allPairs]
  | cons x xs ih => simp [allPairs, ih]

/-- The conditions of a well-formed configuration, one by one. -/
structure ConfigConditions (c : Config) : Prop where
  enabled : enabledAdmitted c = true
  rising : tableRising c = true
  block : maxBlockFits c = true
  divisor : divisorPositive c = true
  mantissa : mantissaFits c = true
  psg : psgConstantsOk c = true
  noise : noisePinned c = true
  inByte : fieldsInByte c = true
  bases : basesInShadow c = true
  inShadow : offsetsInShadow c = true
  distinct : registersDistinct c = true
  spans : spansDisjoint c = true
  widths : operandWidthsOk c = true
  voice : defaultVoiceOk c = true
  map : addressMapOk c = true

theorem wf_conditions {c : Config} (h : c.wf = true) : ConfigConditions c := by
  simp only [Config.wf, Bool.and_eq_true] at h
  obtain ⟨⟨⟨⟨⟨⟨⟨⟨⟨⟨⟨⟨⟨⟨h1, h2⟩, h3⟩, h4⟩, h5⟩, h6⟩, h7⟩, h8⟩, h9⟩, h10⟩, h11⟩, h12⟩, h13⟩, h14⟩, h15⟩ := h
  exact ⟨h1, h2, h3, h4, h5, h6, h7, h8, h9, h10, h11, h12, h13, h14, h15⟩

/-- An enabled command nibble is one of the three admitted ones (D5). -/
theorem mem_en_cases {c : Config} (h : c.wf = true) {n : Nibble} (hn : n ∈ c.en) : n = 0x8 ∨ n = 0x9 ∨ n = 0xB := by
  have := (wf_conditions h).enabled
  simp only [enabledAdmitted, List.all_eq_true, Bool.or_eq_true, beq_iff_eq] at this
  rcases this n hn with (h | h) | h <;> simp [h]

/-- A packet of an enabled command is three bytes long (R83). -/
theorem packetLength_of_mem_en {c : Config} (h : c.wf = true) {n : Nibble} (hn : n ∈ c.en) : packetLength n = 3 := by
  rcases mem_en_cases h hn with rfl | rfl | rfl <;> rfl

theorem table_length {c : Config} (h : c.wf = true) : c.table.length = 12 := by
  have := (wf_conditions h).rising
  simp only [tableRising, Bool.and_eq_true, beq_iff_eq] at this
  exact this.1.1

/-- Every table entry is at least the first, which is at least 1 (R103 condition 1). -/
theorem table_pos {c : Config} (h : c.wf = true) {n : Nat} (hn : n < 12) : 1 ≤ c.table.getD n 0 := by
  have hl := table_length h
  have := (wf_conditions h).rising
  simp only [tableRising, Bool.and_eq_true, beq_iff_eq, decide_eq_true_eq, allPairs_iff] at this
  obtain ⟨⟨-, hp⟩, h0⟩ := this
  rcases Nat.eq_zero_or_pos n with rfl | hpos
  · exact h0
  · have := List.pairwise_iff_getElem.1 hp 0 n (by omega) (by omega) hpos
    simp only [List.getD_eq_getElem?_getD, List.getElem?_eq_getElem (show n < c.table.length by omega),
      List.getElem?_eq_getElem (show 0 < c.table.length by omega), Option.getD_some] at h0 ⊢
    omega

/-- No table entry is above the last. -/
theorem table_le_last {c : Config} (h : c.wf = true) {n : Nat} (hn : n < 12) :
    c.table.getD n 0 ≤ c.table.getD 11 0 := by
  have hl := table_length h
  have := (wf_conditions h).rising
  simp only [tableRising, Bool.and_eq_true, decide_eq_true_eq, allPairs_iff] at this
  rcases Nat.lt_or_ge n 11 with hlt | hge
  · have := List.pairwise_iff_getElem.1 this.1.2 n 11 (by omega) (by omega) hlt
    simp only [List.getD_eq_getElem?_getD, List.getElem?_eq_getElem (show n < c.table.length by omega),
      List.getElem?_eq_getElem (show 11 < c.table.length by omega), Option.getD_some]
    omega
  · rw [show n = 11 by omega]

/-- A field lies in one byte (R121 condition 1). -/
theorem field_in_byte {c : Config} (h : c.wf = true) {f : Nat} {d : FieldDescriptor} (hf : c.fields[f]? = some d) :
    1 ≤ d.w ∧ d.w + d.s ≤ 8 := by
  have := (wf_conditions h).inByte
  simp only [fieldsInByte, List.all_eq_true, Bool.and_eq_true, decide_eq_true_eq] at this
  exact this d (List.mem_of_getElem? hf)

/-- A field's base lies in the shadow (R60). -/
theorem base_lt {c : Config} (h : c.wf = true) {f : Nat} {d : FieldDescriptor} (hf : c.fields[f]? = some d) :
    d.base < c.shadowSize := by
  have := (wf_conditions h).bases
  simp only [basesInShadow, List.all_eq_true, decide_eq_true_eq] at this
  exact this d (List.mem_of_getElem? hf)

/-- The operands a scope looks at, the others made 0. -/
def usedOperands : Scope → Nat → Nat → Nat × Nat
  | .global, _, _ => (0, 0)
  | .channel, ch, _ => (ch, 0)
  | .slot, ch, slot => (ch, slot)

theorem registerOffset_usedOperands (c : Config) (base : Nat) (sc : Scope) (ch slot : Nat) :
    registerOffset c base sc (usedOperands sc ch slot).1 (usedOperands sc ch slot).2 =
      registerOffset c base sc ch slot := by
  cases sc <;> rfl

theorem usedOperands_legal {c : Config} {sc : Scope} {ch slot : Nat} (hc : sc = .global ∨ ch < c.nCh)
    (hs : slot < 4) : usedOperands sc ch slot ∈ legalOperands c sc := by
  cases sc with
  | global => simp [usedOperands, legalOperands]
  | channel => simpa [usedOperands, legalOperands] using hc
  | slot => simpa [usedOperands, legalOperands, hs] using hc

theorem family_mem {c : Config} {f : Nat} {d : FieldDescriptor} (hf : c.fields[f]? = some d) :
    (d.base, d.scope) ∈ registerFamilies c := by
  simp only [registerFamilies, List.mem_eraseDups, List.mem_map]
  exact ⟨d, List.mem_of_getElem? hf, rfl⟩

theorem registerOffset_mem {c : Config} {f : Nat} {d : FieldDescriptor} {ch slot : Nat}
    (hf : c.fields[f]? = some d) (hc : d.scope = .global ∨ ch < c.nCh) (hs : slot < 4) :
    registerOffset c d.base d.scope ch slot ∈ registerOffsets c := by
  simp only [registerOffsets, List.mem_flatMap, List.mem_map]
  exact ⟨_, family_mem hf, _, usedOperands_legal hc hs, registerOffset_usedOperands c d.base d.scope ch slot⟩

/-- R121 condition 2: a legal operand's offset lies in the shadow. -/
theorem registerOffset_lt {c : Config} (h : c.wf = true) {f : Nat} {d : FieldDescriptor} {ch slot : Nat}
    (hf : c.fields[f]? = some d) (hc : d.scope = .global ∨ ch < c.nCh) (hs : slot < 4) :
    registerOffset c d.base d.scope ch slot < c.shadowSize := by
  have := (wf_conditions h).inShadow
  simp only [offsetsInShadow, List.all_eq_true, decide_eq_true_eq] at this
  exact this _ (registerOffset_mem hf hc hs)

/-- What resolve answers under a well-formed configuration: the last reject of R123 never happens. -/
theorem resolve_of_wf {c : Config} (h : c.wf = true) {f : Nat} {d : FieldDescriptor} {ch slot : Nat}
    (hf : c.fields[f]? = some d) (hs : slot < 4) :
    resolve c ch slot f =
      if d.scope ≠ .global ∧ c.nCh ≤ ch then none else some (registerOffset c d.base d.scope ch slot) := by
  simp only [resolve, hf]
  split
  · rfl
  · next hn =>
    rw [if_pos (registerOffset_lt h hf (by by_cases hg : d.scope = .global <;> simp_all) hs)]

/-- The inversion of resolve. -/
theorem resolve_eq_some {c : Config} {ch slot f o : Nat} :
    resolve c ch slot f = some o ↔ ∃ d, c.fields[f]? = some d ∧ (d.scope = .global ∨ ch < c.nCh) ∧
      o < c.shadowSize ∧ o = registerOffset c d.base d.scope ch slot := by
  cases hf : c.fields[f]? with
  | none => simp [resolve, hf]
  | some d =>
    simp only [resolve, hf, Option.some.injEq, exists_eq_left']
    have hcond : ¬(d.scope ≠ .global ∧ c.nCh ≤ ch) ↔ d.scope = .global ∨ ch < c.nCh := by
      rw [not_and_or, not_not, not_le]
    split
    · next hr => exact ⟨fun h => (nomatch h), fun h => absurd (hcond.2 h.1) (not_not.2 hr)⟩
    split
    · next hr ho =>
      simp only [Option.some.injEq]
      exact ⟨fun h => ⟨hcond.1 hr, h ▸ ho, h.symm⟩, fun h => h.2.2.symm⟩
    · next ho => exact ⟨fun h => (nomatch h), fun h => absurd (h.2.2 ▸ h.2.1) ho⟩

end Sys2Proof.Machine
end

