-- ==== Sys2Proof/Laws/Midi.lean ====
section
/-! SUPPORT. The packet assembler, case by case: the five cases of FEED (R83 to R88) as equations, the parts of a
status byte and a data byte, and the invariant R13. -/

namespace Sys2Proof.Machine

@[simp] theorem commandNibble_statusByte (c n : Nibble) : commandNibble (statusByte c n) = c := by
  revert c n; decide

@[simp] theorem channelNibble_statusByte (c n : Nibble) : channelNibble (statusByte c n) = n := by
  revert c n; decide

theorem isStatus_statusByte (c n : Nibble) : isStatus (statusByte c n) = decide (8 ≤ c.toNat) := by
  revert c n; decide

@[simp] theorem isStatus_dataByte (d : BitVec 7) : isStatus (dataByte d) = false := by
  revert d; decide

@[simp] theorem dataValue_dataByte (d : BitVec 7) : dataValue (dataByte d) = d := by
  revert d; decide

/-- The two bits of a status byte that give an event's kind are the low bits of its command nibble (R55). -/
theorem kind_of_commandNibble (b : Byte) : b.extractLsb' 4 2 = (commandNibble b).extractLsb' 0 2 := by
  revert b; decide

variable {c : Config} {b : Byte} {m : Mpa}

/-- R83: an enabled status byte begins a packet, whatever was in progress (R85). -/
theorem feedMpa_enabled (hb : isStatus b = true) (he : commandNibble b ∈ c.en) :
    feedMpa c b m = (beginPacket b, .none) := by
  simp [feedMpa, hb, he]

/-- R84: any other status byte leaves the assembler idle. -/
theorem feedMpa_disabled (hb : isStatus b = true) (he : commandNibble b ∉ c.en) :
    feedMpa c b m = (Mpa.idle, .none) := by
  simp [feedMpa, hb, he]

/-- R86: a data byte in `AwaitStatus` is dropped. -/
theorem feedMpa_stray (hb : isStatus b = false) (hs : m.st = .awaitStatus) : feedMpa c b m = (m, .none) := by
  simp [feedMpa, hb, hs]

/-- R87: a data byte of a packet still short is kept. -/
theorem feedMpa_short (hb : isStatus b = false) (hs : m.st = .awaitData) (hc : m.cnt.toNat + 1 < m.need.toNat) :
    feedMpa c b m = ({ m with d1 := dataValue b, cnt := m.cnt + 1 }, .none) := by
  simp [feedMpa, hb, hs, hc]

/-- R88: a data byte that is not short of the length completes the packet. -/
theorem feedMpa_last (hb : isStatus b = false) (hs : m.st = .awaitData) (hc : ¬m.cnt.toNat + 1 < m.need.toNat) :
    feedMpa c b m = (Mpa.idle, .event (eventOf m.status m.d1 b)) := by
  simp [feedMpa, hb, hs, hc]

/-- What FEED can do to the registers, case by case. -/
theorem feedMpa_cases (c : Config) (b : Byte) (m : Mpa) :
    (isStatus b = true ∧ commandNibble b ∈ c.en ∧ feedMpa c b m = (beginPacket b, .none)) ∨
    (isStatus b = true ∧ commandNibble b ∉ c.en ∧ feedMpa c b m = (Mpa.idle, .none)) ∨
    (isStatus b = false ∧ m.st = .awaitStatus ∧ feedMpa c b m = (m, .none)) ∨
    (isStatus b = false ∧ m.st = .awaitData ∧ m.cnt.toNat + 1 < m.need.toNat ∧
      feedMpa c b m = ({ m with d1 := dataValue b, cnt := m.cnt + 1 }, .none)) ∨
    (isStatus b = false ∧ m.st = .awaitData ∧ ¬m.cnt.toNat + 1 < m.need.toNat ∧
      feedMpa c b m = (Mpa.idle, .event (eventOf m.status m.d1 b))) := by
  cases hb : isStatus b with
  | true =>
    by_cases he : commandNibble b ∈ c.en
    · exact .inl ⟨rfl, he, feedMpa_enabled hb he⟩
    · exact .inr (.inl ⟨rfl, he, feedMpa_disabled hb he⟩)
  | false =>
    have hs : m.st = .awaitStatus ∨ m.st = .awaitData := by cases m.st <;> simp
    rcases hs with hs | hs
    · exact .inr (.inr (.inl ⟨rfl, hs, feedMpa_stray hb hs⟩))
    · by_cases hc : m.cnt.toNat + 1 < m.need.toNat
      · exact .inr (.inr (.inr (.inl ⟨rfl, hs, hc, feedMpa_short hb hs hc⟩)))
      · exact .inr (.inr (.inr (.inr ⟨rfl, hs, hc, feedMpa_last hb hs hc⟩)))

theorem idle_legal (c : Config) : Mpa.idle.Legal c := ⟨rfl, rfl, rfl, rfl⟩

/-- In `AwaitStatus` the registers of R13 are the idle ones. -/
theorem legal_idle (h : m.Legal c) (hs : m.st = .awaitStatus) : m = Mpa.idle := by
  cases m
  cases hs
  obtain ⟨h1, h2, h3, h4⟩ := h
  simp only at h1 h2 h3 h4
  rw [h1, h2, h3, h4]
  rfl

/-- In `AwaitData` the registers of R13 await three bytes and have one or two (R89). -/
theorem legal_awaitData (hw : c.wf = true) (h : m.Legal c) (hs : m.st = .awaitData) :
    m.need = 3 ∧ (m.cnt = 1 ∨ m.cnt = 2) := by
  simp only [Mpa.Legal, hs] at h
  obtain ⟨-, he, hn, h1, h2, -⟩ := h
  have h3 := hn.trans (packetLength_of_mem_en hw he)
  rw [h3] at h2
  refine ⟨h3, ?_⟩
  generalize m.cnt = k at h1 h2
  revert h1 h2
  revert k
  decide

/-- FEED keeps the registers of R13. -/
theorem feedMpa_legal (hw : c.wf = true) (h : m.Legal c) : (feedMpa c b m).1.Legal c := by
  rcases feedMpa_cases c b m with ⟨hb, he, hf⟩ | ⟨-, -, hf⟩ | ⟨-, -, hf⟩ | ⟨-, hs, hc, hf⟩ | ⟨-, -, -, hf⟩ <;> rw [hf]
  · refine ⟨hb, he, rfl, Nat.le_refl 1, ?_, fun _ => rfl⟩
    change 1 < (packetLength (commandNibble b)).toNat
    rw [packetLength_of_mem_en hw he]
    decide
  · exact idle_legal c
  · exact h
  · obtain ⟨hn, hcnt⟩ := legal_awaitData hw h hs
    have h1 : m.cnt = 1 := by
      rcases hcnt with h1 | h2
      · exact h1
      · rw [h2, hn] at hc; exact absurd hc (by decide)
    simp only [Mpa.Legal, hs] at h ⊢
    rw [h1, hn]
    exact ⟨h.1, h.2.1, by rw [packetLength_of_mem_en hw h.2.1], by decide, by decide, fun h => absurd h (by decide)⟩
  · exact idle_legal c

end Sys2Proof.Machine
end

