-- ==== Sys2Proof/Laws/Decode.lean ====
section
/-! SUPPORT. The fields of a command word, and the row a byte falls in (R62, R69). -/

namespace Sys2Proof

theorem commandWord_getLsbD (op : Nibble) (x : BitVec 20) (i : Nat) :
    (commandWord op x).getLsbD i = if i < 20 then x.getLsbD i else op.getLsbD (i - 20) :=
  (BitVec.getLsbD_append (x := op) (y := x) (i := i)).trans (by cases decide (i < 20) <;> simp_all)

/-- The operation code of a command word put together from its parts (R62). -/
theorem opcodeOf_commandWord (op : Nibble) (x : BitVec 20) : opcodeOf (commandWord op x) = op := by
  refine BitVec.eq_of_getLsbD_eq fun i hi => ?_
  simp [opcodeOf, commandWord_getLsbD, hi]

/-- The bits of a command word below its operation code are its operands' (R62). -/
theorem extract_commandWord (op : Nibble) (x : BitVec 20) {start len : Nat} (h : start + len ≤ 20) :
    (commandWord op x).extractLsb' start len = x.extractLsb' start len := by
  refine BitVec.eq_of_getLsbD_eq fun i hi => ?_
  simp [commandWord_getLsbD, hi, show start + i < 20 by omega]

/-- Bits 23:20 of a command word, as the opcode table's mask takes them (R69). -/
theorem and_opcode_mask (w : CommandWord) : w.toNat &&& 0xF00000 = (opcodeOf w).toNat <<< 20 := by
  refine Nat.eq_of_testBit_eq fun i => ?_
  have hm : (0xF00000 : Nat) = (2 ^ 4 - 1) <<< 20 := by decide
  rw [hm, Nat.testBit_and, Nat.testBit_shiftLeft, Nat.testBit_two_pow_sub_one, Nat.testBit_shiftLeft,
    ← BitVec.getLsbD, opcodeOf]
  by_cases h : 20 ≤ i
  · rw [← BitVec.getLsbD, BitVec.getLsbD_extractLsb', show 20 + (i - 20) = i by omega]
    simp [h, Bool.and_comm]
  · simp [h]

/-- A status byte falls in its command nibble's row (R69). -/
theorem decodeMidi_statusByte (n : Nibble) :
    decodeMidi (Machine.statusByte 8#4 n) = .noteOff n ∧ decodeMidi (Machine.statusByte 9#4 n) = .noteOn n ∧
      decodeMidi (Machine.statusByte 10#4 n) = .polyPressure n ∧
      decodeMidi (Machine.statusByte 11#4 n) = .controlChange n ∧
      decodeMidi (Machine.statusByte 12#4 n) = .programChange n ∧
      decodeMidi (Machine.statusByte 13#4 n) = .channelPressure n ∧
      decodeMidi (Machine.statusByte 14#4 n) = .pitchBend n ∧ decodeMidi (Machine.statusByte 15#4 n) = .system n := by
  simp [decodeMidi, Machine.isStatus_statusByte]

/-- A data byte falls in the row of data bytes (R69). -/
theorem decodeMidi_dataByte (d : BitVec 7) : decodeMidi (Machine.dataByte d) = .data d := by
  simp [decodeMidi]

end Sys2Proof
end

