-- ==== Sys2Proof/Laws/Frequency.lean ====
section
/-! SUPPORT. The frequency encoder: the FM code as a number, the block as a signed clamp, what the halving loop
answers (R104, R106). -/

namespace Sys2Proof.Machine

theorem mantissaOf_lt {c : Config} (h : c.wf = true) (key : Key) : mantissaOf c key < 2048 := by
  have h1 := (wf_conditions h).mantissa
  simp only [mantissaFits, decide_eq_true_eq] at h1
  have h2 : pitchEntry c key ≤ c.table.getD 11 0 := table_le_last h (Nat.mod_lt _ (by decide))
  have := Nat.div_le_div_right (c := c.refDivisor) (Nat.mul_le_mul_right 512 h2)
  simp only [mantissaOf]
  omega

/-- The block is the clamp of the signed sum (R104). -/
theorem blockOf_cast (c : Config) (key : Key) :
    (blockOf c key : Int) = clamp ((key.toNat / 12 : Nat) + c.octaveOffset) 0 c.maxBlock := by
  refine Int.toNat_of_nonneg ?_
  unfold clamp
  split_ifs <;> omega

theorem blockOf_lt {c : Config} (h : c.wf = true) (key : Key) : blockOf c key < 8 := by
  have h1 := (wf_conditions h).block
  simp only [maxBlockFits, decide_eq_true_eq] at h1
  have h2 := blockOf_cast c key
  unfold clamp at h2
  split_ifs at h2 <;> omega

/-- The FM code is the block above the mantissa, neither touching the other (R104, R109). -/
theorem fmCodeOf_toNat {c : Config} (h : c.wf = true) (key : Key) :
    (fmCodeOf c key).toNat = 2048 * blockOf c key + mantissaOf c key := by
  have hm := mantissaOf_lt h key
  have hb := blockOf_lt h key
  rw [fmCodeOf, BitVec.toNat_ofNat, Nat.shiftLeft_eq, Nat.mul_comm,
    ← Nat.two_pow_add_eq_or_of_lt (i := 11) (by omega), Nat.mod_eq_of_lt (by omega)]

/-- The halving loop divides by the least power of two that brings the period within the bound (R106). -/
theorem halveTo_spec (bound : Nat) {fuel p : Nat} (hp : p ≤ fuel) :
    ∃ j, halveTo bound fuel p = p / 2 ^ j ∧ p / 2 ^ j ≤ bound ∧ ∀ i, i < j → bound < p / 2 ^ i := by
  induction fuel generalizing p with
  | zero => exact ⟨0, by simp [halveTo], by simp; omega, by simp⟩
  | succ n ih =>
    rw [halveTo]
    split
    · next h => exact ⟨0, by simp, by simpa, by simp⟩
    · next h =>
      obtain ⟨j, h1, h2, h3⟩ := ih (p := p / 2) (by omega)
      have e : ∀ i, p / 2 / 2 ^ i = p / 2 ^ (i + 1) := fun i => by
        rw [Nat.div_div_eq_div_mul, Nat.pow_succ, Nat.mul_comm]
      refine ⟨j + 1, by rw [h1, e], by rw [← e]; exact h2, fun i hi => ?_⟩
      cases i with
      | zero => simp; omega
      | succ i => rw [← e]; exact h3 i (by omega)

end Sys2Proof.Machine
end

