-- ==== Sys2Proof/Laws/Memory.lean ====
section
/-! SUPPORT. The laws of memory: a byte written is read back, every other byte is left alone, and the canonical form
is kept. -/

namespace Sys2Proof.Machine

@[simp] theorem memRead_nil (u : Byte) (a : Nat) : memRead u a [] = u := rfl

theorem memRead_cons (u : Byte) (a : Nat) (cell : Host.Cell) (m : Memory) :
    memRead u a (cell :: m) = if cell.1 = a then cell.2 else memRead u a m := rfl

/-- An address no entry has reads as an unlisted one. -/
theorem memRead_of_notMem {u : Byte} {a : Nat} {m : Memory} (h : ∀ cell ∈ m, cell.1 ≠ a) : memRead u a m = u := by
  induction m with
  | nil => rfl
  | cons c m ih =>
    rw [memRead_cons, if_neg (h c (by simp))]
    exact ih fun x hx => h x (by simp [hx])

theorem memWf_cons {u : Byte} {cell : Host.Cell} {m : Memory} :
    Memory.wf u (cell :: m) = true ↔
      cell.2 ≠ u ∧ (∀ x ∈ m, cell.1 < x.1) ∧ Memory.wf u m = true := by
  simp [Memory.wf, and_assoc]

/-- A write leaves every other address alone. -/
theorem memRead_memWrite_ne {u v : Byte} {a b : Nat} (h : b ≠ a) (m : Memory) :
    memRead u b (memWrite u a v m) = memRead u b m := by
  induction m with
  | nil => by_cases hv : v = u <;> simp [memWrite, hv, memRead_cons, h.symm]
  | cons c m ih =>
    obtain ⟨k, x⟩ := c
    rw [memWrite]
    split
    · simp [memRead_cons, ih]
    split
    · next hk =>
      have : k ≠ b := fun e => h (e ▸ hk)
      split <;> simp [memRead_cons, this, h.symm]
    · split <;> simp [memRead_cons, h.symm]

/-- A byte written is read back. -/
theorem memRead_memWrite_self {u v : Byte} {a : Nat} {m : Memory} (hm : Memory.wf u m = true) :
    memRead u a (memWrite u a v m) = v := by
  induction m with
  | nil => by_cases hv : v = u <;> simp [memWrite, hv, memRead_cons]
  | cons c m ih =>
    obtain ⟨k, x⟩ := c
    obtain ⟨-, hlt, hm⟩ := memWf_cons.1 hm
    simp only at hlt
    rw [memWrite]
    split
    · next hk => simp [memRead_cons, hk.ne, ih hm]
    split
    · next hk =>
      split
      · next hv => rw [hv]; exact memRead_of_notMem fun y hy => by have := hlt y hy; omega
      · simp [memRead_cons]
    · split
      · next hka _ hv =>
        rw [memRead_cons, if_neg (by simpa using ‹¬k = a›), hv]
        exact memRead_of_notMem fun y hy => by have := hlt y hy; omega
      · simp [memRead_cons]

/-- Every entry a write leaves is the one written or an old one. -/
theorem mem_memWrite {u v : Byte} {a : Nat} {m : Memory} {cell : Host.Cell} (h : cell ∈ memWrite u a v m) :
    cell = (a, v) ∨ cell ∈ m := by
  induction m with
  | nil => by_cases hv : v = u <;> simp_all [memWrite]
  | cons c m ih =>
    obtain ⟨k, x⟩ := c
    rw [memWrite] at h
    split at h
    · rcases List.mem_cons.1 h with rfl | h
      · exact .inr (by simp)
      · rcases ih h with h | h
        · exact .inl h
        · exact .inr (by simp [h])
    split at h
    · split at h
      · exact .inr (by simp [h])
      · rcases List.mem_cons.1 h with h | h
        · exact .inl h
        · exact .inr (by simp [h])
    · split at h
      · exact .inr h
      · rcases List.mem_cons.1 h with h | h
        · exact .inl h
        · exact .inr h

/-- A write keeps the canonical form. -/
theorem memWrite_wf {u v : Byte} {a : Nat} {m : Memory} (hm : Memory.wf u m = true) :
    Memory.wf u (memWrite u a v m) = true := by
  induction m with
  | nil => by_cases hv : v = u <;> simp [memWrite, hv, Memory.wf]
  | cons c m ih =>
    obtain ⟨k, x⟩ := c
    have hcm := hm
    obtain ⟨hx, hlt, hm⟩ := memWf_cons.1 hm
    simp only at hx hlt
    rw [memWrite]
    split
    · next hk =>
      refine memWf_cons.2 ⟨hx, fun y hy => ?_, ih hm⟩
      rcases mem_memWrite hy with rfl | hy
      · exact hk
      · exact hlt y hy
    split
    · next hk =>
      split
      · exact hm
      · next hv => exact memWf_cons.2 ⟨hv, fun y hy => by simpa [hk] using hlt y hy, hm⟩
    · split
      · exact hcm
      · next hv =>
        refine memWf_cons.2 ⟨hv, fun y hy => ?_, hcm⟩
        rcases List.mem_cons.1 hy with rfl | hy
        · simp only; omega
        · have := hlt y hy; simp only; omega

/-- Two canonical memories that read alike are equal: the canonical form is one list per contents. -/
theorem memory_ext {u : Byte} {m n : Memory} (hm : Memory.wf u m = true) (hn : Memory.wf u n = true)
    (h : ∀ a, memRead u a m = memRead u a n) : m = n := by
  induction m generalizing n with
  | nil =>
    cases n with
    | nil => rfl
    | cons c n => have := h c.1; simp [memRead_cons, (memWf_cons.1 hn).1.symm] at this
  | cons c m ih =>
    obtain ⟨hc, hcl, hm⟩ := memWf_cons.1 hm
    cases n with
    | nil => have := h c.1; simp [memRead_cons, hc] at this
    | cons e n =>
      obtain ⟨he, hel, hn⟩ := memWf_cons.1 hn
      have hk : c.1 = e.1 := by
        rcases Nat.lt_trichotomy c.1 e.1 with hlt | heq | hlt
        · have := h c.1
          rw [memRead_cons, if_pos rfl, memRead_cons, if_neg (by omega),
            memRead_of_notMem fun y hy => by have := hel y hy; omega] at this
          exact absurd this hc
        · exact heq
        · have := h e.1
          rw [memRead_cons, if_neg (by omega), memRead_cons, if_pos rfl,
            memRead_of_notMem fun y hy => by have := hcl y hy; omega] at this
          exact absurd this.symm he
      have hv : c.2 = e.2 := by simpa [memRead_cons, hk] using h c.1
      have : m = n := ih hm hn fun a => by
        by_cases ha : c.1 = a
        · rw [memRead_of_notMem fun y hy => by have := hcl y hy; omega,
            memRead_of_notMem fun y hy => by have := hel y hy; omega]
        · have := h a
          rwa [memRead_cons, if_neg ha, memRead_cons, if_neg (hk ▸ ha)] at this
      rw [this, Prod.ext hk hv]

end Sys2Proof.Machine
end

