-- ==== Sys2Proof/Laws/Shadow.lean ====
section
/-! SUPPORT. The shadow-register controller: resolution is one-to-one on registers (R121 condition 3), a byte written
reaches mirror and bus together (R37), a field write changes one field of one register (R125). -/

namespace Sys2Proof.Machine

/-! Resolution -/

theorem registerOffsets_nodup {c : Config} (h : c.wf = true) : (registerOffsets c).Nodup := by
  have := (wf_conditions h).distinct
  simp only [registersDistinct, allPairs_iff, bne_iff_ne] at this
  exact this

/-- R121 condition 3: one offset is one register, with one choice of the operands its scope uses. -/
theorem registerOffset_inj {c : Config} (h : c.wf = true) {f g : Nat} {d e : FieldDescriptor} {ch slot ch' slot' : Nat}
    (hf : c.fields[f]? = some d) (hg : c.fields[g]? = some e) (hc : d.scope = .global ∨ ch < c.nCh)
    (hc' : e.scope = .global ∨ ch' < c.nCh) (hs : slot < 4) (hs' : slot' < 4)
    (ho : registerOffset c d.base d.scope ch slot = registerOffset c e.base e.scope ch' slot') :
    d.base = e.base ∧ d.scope = e.scope ∧ usedOperands d.scope ch slot = usedOperands e.scope ch' slot' := by
  obtain ⟨hin, hdis⟩ := List.nodup_flatMap.1 (registerOffsets_nodup h)
  have hmem : registerOffset c d.base d.scope ch slot ∈
      (legalOperands c d.scope).map fun p => registerOffset c d.base d.scope p.1 p.2 :=
    List.mem_map.2 ⟨_, usedOperands_legal hc hs, registerOffset_usedOperands c d.base d.scope ch slot⟩
  have hmem' : registerOffset c e.base e.scope ch' slot' ∈
      (legalOperands c e.scope).map fun p => registerOffset c e.base e.scope p.1 p.2 :=
    List.mem_map.2 ⟨_, usedOperands_legal hc' hs', registerOffset_usedOperands c e.base e.scope ch' slot'⟩
  have hfam : (d.base, d.scope) = (e.base, e.scope) := by
    by_contra hne
    obtain ⟨i, hi, hi'⟩ := List.getElem_of_mem (family_mem hf)
    obtain ⟨j, hj, hj'⟩ := List.getElem_of_mem (family_mem hg)
    have hpw := List.pairwise_iff_getElem.1 hdis
    rcases Nat.lt_trichotomy i j with hlt | rfl | hlt
    · have := hpw i j hi hj hlt
      rw [hi', hj'] at this
      exact this hmem (ho ▸ hmem')
    · exact hne (hi'.symm.trans hj')
    · have := hpw j i hj hi hlt
      rw [hi', hj'] at this
      exact this (ho ▸ hmem') hmem
  obtain ⟨hb, hsc⟩ := Prod.mk.inj hfam
  refine ⟨hb, hsc, ?_⟩
  have hinj := List.inj_on_of_nodup_map (hin _ (family_mem hf))
  have hl' := usedOperands_legal (c := c) hc' hs'
  rw [← hsc] at hl' ho ⊢
  rw [← hb, ← registerOffset_usedOperands c d.base d.scope ch slot,
    ← registerOffset_usedOperands c d.base d.scope ch' slot'] at ho
  exact hinj (usedOperands_legal hc hs) hl' ho

/-- Two offsets of the shadow that differ mirror different chip registers (R122). -/
theorem chipRegister_inj {c : Config} (h : c.wf = true) {o o' : Nat} (ho : o < c.shadowSize) (ho' : o' < c.shadowSize)
    (he : chipRegister c o = chipRegister c o') : o = o' := by
  have hm := (wf_conditions h).map
  simp only [addressMapOk, Bool.and_eq_true, beq_iff_eq, allPairs_iff, bne_iff_ne] at hm
  obtain ⟨hl, hp⟩ := hm
  have hn : c.addrMap.Nodup := hp
  simp only [chipRegister, List.getD_eq_getElem?_getD, List.getElem?_eq_getElem (show o < c.addrMap.length by omega),
    List.getElem?_eq_getElem (show o' < c.addrMap.length by omega), Option.getD_some] at he
  exact (hn.getElem_inj_iff).1 he

/-! A byte to mirror and bus -/

theorem shRead_answer (s : State) (r : Result) (o : Nat) : shRead (answer r s) o = shRead s o := rfl

/-- The byte written is read back. -/
theorem shRead_putByte_self {s : State} {o : Nat} {v : Byte} (h : ShadowForm s) : shRead (putByte o v s) o = v :=
  memRead_memWrite_self h.1

/-- Every other byte is left alone. -/
theorem shRead_putByte_ne {s : State} {o o' : Nat} {v : Byte} (h : o' ≠ o) :
    shRead (putByte o v s) o' = shRead s o' :=
  memRead_memWrite_ne h s.sh

/-- A byte write inside the shadow keeps its form. -/
theorem putByte_form {s : State} {o : Nat} {v : Byte} (h : ShadowForm s) (ho : o < s.cfg.shadowSize) :
    ShadowForm (putByte o v s) := by
  refine ⟨memWrite_wf h.1, fun cell hcell => ?_⟩
  rcases mem_memWrite hcell with rfl | hcell
  · exact ho
  · exact h.2 cell hcell

theorem lastWritten_append (reset : Byte) (r : ChipRegister) (bus : List BusEvent) (e : BusEvent) :
    lastWritten reset r (bus ++ [e]) =
      match e with
      | .rst => reset
      | .w b a d => if b = r.bank ∧ a = r.addr then d else lastWritten reset r bus := by
  cases e <;> simp [lastWritten]

/-- A byte write inside the shadow keeps the shadow invariant (R18). -/
theorem putByte_exact {s : State} {o : Nat} {v : Byte} (hw : s.cfg.wf = true) (hf : ShadowForm s)
    (h : ShadowExact s) (ho : o < s.cfg.shadowSize) : ShadowExact (putByte o v s) := by
  intro o' ho'
  change shRead (putByte o v s) o' = lastWritten s.cfg.shadowReset (chipRegister s.cfg o')
    (s.bus ++ [.w (chipRegister s.cfg o).bank (chipRegister s.cfg o).addr v])
  rw [lastWritten_append]
  by_cases hoo : o' = o
  · subst hoo
    simp [shRead_putByte_self hf]
  · rw [shRead_putByte_ne hoo, h o' ho']
    simp only
    rw [if_neg]
    rintro ⟨hb, ha⟩
    refine hoo (chipRegister_inj hw ho' ho ?_)
    cases h1 : chipRegister s.cfg o'
    cases h2 : chipRegister s.cfg o
    simp_all

/-! Field writes -/

/-- What a field write can do: nothing, where the operands are rejected, or one byte write inside the shadow. -/
theorem writeField_cases (ch slot f : Nat) (value : Byte) (s : State) :
    (resolve s.cfg ch slot f = none ∧ writeField ch slot f value s = s) ∨
      ∃ d o, s.cfg.fields[f]? = some d ∧ resolve s.cfg ch slot f = some o ∧ o < s.cfg.shadowSize ∧
        writeField ch slot f value s = putByte o (insertField d value (shRead s o)) s := by
  cases hr : resolve s.cfg ch slot f with
  | none => exact .inl ⟨rfl, by cases hf : s.cfg.fields[f]? <;> simp [writeField, hr, hf]⟩
  | some o =>
    obtain ⟨d, hd, -, ho, -⟩ := resolve_eq_some.1 hr
    exact .inr ⟨d, o, hd, rfl, ho, by simp [writeField, hr, hd]⟩

@[simp] theorem writeField_mpa (ch slot f : Nat) (value : Byte) (s : State) :
    (writeField ch slot f value s).mpa = s.mpa := by
  rcases writeField_cases ch slot f value s with ⟨-, h⟩ | ⟨d, o, -, -, -, h⟩ <;> simp [h]

@[simp] theorem writeField_cfg (ch slot f : Nat) (value : Byte) (s : State) :
    (writeField ch slot f value s).cfg = s.cfg := by
  rcases writeField_cases ch slot f value s with ⟨-, h⟩ | ⟨d, o, -, -, -, h⟩ <;> simp [h]

@[simp] theorem writeField_pending (ch slot f : Nat) (value : Byte) (s : State) :
    (writeField ch slot f value s).pending = s.pending := by
  rcases writeField_cases ch slot f value s with ⟨-, h⟩ | ⟨d, o, -, -, -, h⟩ <;> simp [h]

@[simp] theorem writeField_result (ch slot f : Nat) (value : Byte) (s : State) :
    (writeField ch slot f value s).result = s.result := by
  rcases writeField_cases ch slot f value s with ⟨-, h⟩ | ⟨d, o, -, -, -, h⟩ <;> simp [h]

/-- A property that every byte write inside the shadow keeps is kept by a field write. -/
theorem writeField_induct {P : State → Prop} (hP : ∀ s o v, P s → o < s.cfg.shadowSize → P (putByte o v s))
    (ch slot f : Nat) (value : Byte) {s : State} (hs : P s) : P (writeField ch slot f value s) := by
  rcases writeField_cases ch slot f value s with ⟨-, h⟩ | ⟨d, o, -, -, ho, h⟩
  · rwa [h]
  · rw [h]; exact hP s o _ hs ho

/-- A property that every byte write inside the shadow keeps is kept by a list of field writes. -/
theorem writeVoice_induct {P : State → Prop} (hP : ∀ s o v, P s → o < s.cfg.shadowSize → P (putByte o v s))
    (ch : Nat) (voice : List DefaultWrite) {s : State} (hs : P s) : P (writeVoice ch voice s) := by
  induction voice generalizing s with
  | nil => exact hs
  | cons e voice ih => exact ih (writeField_induct hP ch e.slot e.field e.value hs)

/-- A property that every byte write inside the shadow keeps is kept by INIT_VOICE. -/
theorem initVoice_induct {P : State → Prop} (hP : ∀ s o v, P s → o < s.cfg.shadowSize → P (putByte o v s))
    (ch : Nat) {s : State} (hs : P s) : P (initVoice ch s) := by
  unfold initVoice
  split
  · exact hs
  · exact writeVoice_induct hP ch _ hs

/-- What one turn of MIRROR can do: nothing, or one byte write inside the shadow. -/
theorem mirrorTurn_cases (src dst : Nat) (acc : State × List Nat) (fk : Nat × Nat) :
    mirrorTurn src dst acc fk = acc ∨
      ∃ os od, resolve acc.1.cfg src fk.2 fk.1 = some os ∧ resolve acc.1.cfg dst fk.2 fk.1 = some od ∧
        od ∉ acc.2 ∧ od < acc.1.cfg.shadowSize ∧
        mirrorTurn src dst acc fk = (putByte od (shRead acc.1 os) acc.1, od :: acc.2) := by
  unfold mirrorTurn
  split
  · next os od hos hod =>
    split
    · exact .inl rfl
    · next hn =>
      obtain ⟨-, -, -, ho, -⟩ := resolve_eq_some.1 hod
      exact .inr ⟨os, od, hos, hod, hn, ho, rfl⟩
  · exact .inl rfl

/-- A property that every byte write inside the shadow keeps is kept by MIRROR. -/
theorem mirrorVoice_induct {P : State → Prop} (hP : ∀ s o v, P s → o < s.cfg.shadowSize → P (putByte o v s))
    (src dst : Nat) {s : State} (hs : P s) : P (mirrorVoice src dst s) := by
  have hfold : ∀ (l : List (Nat × Nat)) (acc : State × List Nat), P acc.1 →
      P (l.foldl (mirrorTurn src dst) acc).1 := by
    intro l
    induction l with
    | nil => exact fun acc h => h
    | cons x l ih =>
      intro acc h
      refine ih _ ?_
      rcases mirrorTurn_cases src dst acc x with he | ⟨os, od, -, -, -, ho, he⟩
      · rwa [he]
      · rw [he]; exact hP _ _ _ h ho
  unfold mirrorVoice
  split
  · exact hs
  · exact hfold _ _ hs

/-! Reading and writing one field -/

/-- The address map has an entry for every offset of the shadow (R122). -/
theorem addrMap_eq_some {c : Config} (h : c.wf = true) {o : Nat} (ho : o < c.shadowSize) :
    c.addrMap[o]? = some (chipRegister c o) := by
  have hm := (wf_conditions h).map
  simp only [addressMapOk, Bool.and_eq_true, beq_iff_eq] at hm
  simp [chipRegister, List.getElem?_eq_getElem (show o < c.addrMap.length by omega)]

/-- A rejected field write does nothing. -/
theorem writeField_of_reject {s : State} {ch slot f : Nat} {v : Byte} (h : resolve s.cfg ch slot f = none) :
    writeField ch slot f v s = s := by
  rcases writeField_cases ch slot f v s with ⟨-, h'⟩ | ⟨d, o, -, hr, -, -⟩
  · exact h'
  · simp [h] at hr

/-- An accepted field write is one byte write. -/
theorem writeField_of_resolve {s : State} {ch slot f o : Nat} {v : Byte} {d : FieldDescriptor}
    (hd : s.cfg.fields[f]? = some d) (h : resolve s.cfg ch slot f = some o) :
    writeField ch slot f v s = putByte o (insertField d v (shRead s o)) s := by
  simp [writeField, h, hd]

/-- A rejected read answers nothing. -/
theorem readField_of_reject {s : State} {ch slot f : Nat} (h : resolve s.cfg ch slot f = none) :
    readField ch slot f s = .none := by
  unfold readField; rw [h]; cases s.cfg.fields[f]? <;> rfl

/-- An accepted read answers the field's bits. -/
theorem readField_of_resolve {s : State} {ch slot f o : Nat} {d : FieldDescriptor}
    (hd : s.cfg.fields[f]? = some d) (h : resolve s.cfg ch slot f = some o) :
    readField ch slot f s = .value (extractField d (shRead s o)) := by
  simp [readField, h, hd]

/-- A field write does not look at the result of the operation before it. -/
theorem writeField_answer (ch slot f : Nat) (v : Byte) (r : Result) (s : State) :
    writeField ch slot f v (answer r s) = answer r (writeField ch slot f v s) := by
  simp only [writeField, answer_cfg]
  split <;> rfl

/-- A list of field writes does not look at the result of the operation before it. -/
theorem writeVoice_answer (ch : Nat) (voice : List DefaultWrite) (r : Result) (s : State) :
    writeVoice ch voice (answer r s) = answer r (writeVoice ch voice s) := by
  induction voice generalizing s with
  | nil => rfl
  | cons e voice ih => exact (congrArg (writeVoice ch voice) (writeField_answer ch e.slot e.field e.value r s)).trans (ih _)

/-- An element of the default voice resolves on every channel in range (R133). -/
theorem resolve_defaultVoice {c : Config} (h : c.wf = true) {ch : Nat} (hc : ch < c.nCh) {e : DefaultWrite}
    (he : e ∈ c.defaultVoice) : ∃ d o, c.fields[e.field]? = some d ∧ resolve c ch e.slot e.field = some o ∧
      e.slot < 4 := by
  have := (wf_conditions h).voice
  simp only [defaultVoiceOk, List.all_eq_true, Bool.and_eq_true, decide_eq_true_eq] at this
  obtain ⟨h1, h2⟩ := this e he
  have hd := List.getElem?_eq_getElem h1
  exact ⟨_, registerOffset c c.fields[e.field].base c.fields[e.field].scope ch e.slot, hd,
    by rw [resolve_of_wf h hd h2, if_neg (by omega)], h2⟩

/-- A field write keeps the shadow's form. -/
theorem writeField_form {s : State} (ch slot f : Nat) (v : Byte) (h : ShadowForm s) :
    ShadowForm (writeField ch slot f v s) :=
  writeField_induct (fun _ _ _ h ho => putByte_form h ho) ch slot f v h

/-- A list of field writes keeps the shadow's form. -/
theorem writeVoice_form {s : State} (ch : Nat) (voice : List DefaultWrite) (h : ShadowForm s) :
    ShadowForm (writeVoice ch voice s) :=
  writeVoice_induct (fun _ _ _ h ho => putByte_form h ho) ch voice h

/-- A write of one field leaves every other field as it was, in the same byte or elsewhere (R125, R127). -/
theorem field_kept {s : State} (h : s.cfg.wf = true) (hF : ShadowForm s) {f o ch slot : Nat} {d : FieldDescriptor}
    (hd : s.cfg.fields[f]? = some d) (hs : slot < 4) (hr : resolve s.cfg ch slot f = some o) (ch' : Nat)
    {slot' g : Nat} (hs' : slot' < 4) (v : Byte) (hg : g ≠ f) :
    extractField d (shRead (writeField ch' slot' g v s) o) = extractField d (shRead s o) := by
  rcases writeField_cases ch' slot' g v s with ⟨-, h'⟩ | ⟨e, o', he, hr', -, h'⟩ <;> rw [h']
  by_cases hoo : o = o'
  · subst hoo
    rw [shRead_putByte_self hF]
    obtain ⟨d', hd', hc, -, ho⟩ := resolve_eq_some.1 hr
    obtain ⟨e', he', hc', -, ho'⟩ := resolve_eq_some.1 hr'
    obtain rfl : d = d' := Option.some.inj (hd.symm.trans hd')
    obtain rfl : e = e' := Option.some.inj (he.symm.trans he')
    obtain ⟨hb, hsc, -⟩ := registerOffset_inj h hd he hc hc' hs hs' (ho.symm.trans ho')
    have hsp := (wf_conditions h).spans
    simp only [spansDisjoint, allPairs_iff, List.pairwise_iff_getElem] at hsp
    obtain ⟨hf1, hf2⟩ := List.getElem?_eq_some_iff.1 hd
    obtain ⟨hg1, hg2⟩ := List.getElem?_eq_some_iff.1 he
    refine extract_insert_disjoint v _ (field_in_byte h he).2 (field_in_byte h hd).2 ?_
    rcases Nat.lt_or_gt_of_ne hg with hlt | hlt
    · have := hsp g f hg1 hf1 hlt
      rw [hf2, hg2] at this
      simpa [hb, hsc] using this
    · have := hsp f g hf1 hg1 hlt
      rw [hf2, hg2] at this
      simp [hb, hsc] at this
      omega
  · rw [shRead_putByte_ne hoo]

/-! What the operations leave alone -/

@[simp] theorem initVoice_cfg (ch : Nat) (s : State) : (initVoice ch s).cfg = s.cfg :=
  initVoice_induct (P := fun t => t.cfg = s.cfg) (fun _ _ _ h _ => h) ch rfl

@[simp] theorem initVoice_mpa (ch : Nat) (s : State) : (initVoice ch s).mpa = s.mpa :=
  initVoice_induct (P := fun t => t.mpa = s.mpa) (fun _ _ _ h _ => h) ch rfl

@[simp] theorem initVoice_pending (ch : Nat) (s : State) : (initVoice ch s).pending = s.pending :=
  initVoice_induct (P := fun t => t.pending = s.pending) (fun _ _ _ h _ => h) ch rfl

@[simp] theorem writeVoice_cfg (ch : Nat) (voice : List DefaultWrite) (s : State) :
    (writeVoice ch voice s).cfg = s.cfg :=
  writeVoice_induct (P := fun t => t.cfg = s.cfg) (fun _ _ _ h _ => h) ch voice rfl

@[simp] theorem mirrorVoice_cfg (src dst : Nat) (s : State) : (mirrorVoice src dst s).cfg = s.cfg :=
  mirrorVoice_induct (P := fun t => t.cfg = s.cfg) (fun _ _ _ h _ => h) src dst rfl

@[simp] theorem mirrorVoice_mpa (src dst : Nat) (s : State) : (mirrorVoice src dst s).mpa = s.mpa :=
  mirrorVoice_induct (P := fun t => t.mpa = s.mpa) (fun _ _ _ h _ => h) src dst rfl

@[simp] theorem mirrorVoice_pending (src dst : Nat) (s : State) : (mirrorVoice src dst s).pending = s.pending :=
  mirrorVoice_induct (P := fun t => t.pending = s.pending) (fun _ _ _ h _ => h) src dst rfl

/-- No operation writes the configuration (R48, R143). -/
@[simp] theorem effect_cfg (i : Instr) (s : State) : (effect i s).cfg = s.cfg := by
  cases i <;> simp [effect]

end Sys2Proof.Machine
end

