-- ==== Sys2Proof/Laws/Mirror.lean ====
section
/-! SUPPORT. MIRROR's loop, said once: the offsets it has done are distinct destination registers, each holds its
source's byte, every other byte is as it was, and the bus has one write per offset done, in order (R130). -/

namespace Sys2Proof.Machine

/-- The operands MIRROR goes through name fields that are not Global, and slots. -/
theorem mem_mirrorOperands {c : Config} {f k : Nat} (h : (f, k) ∈ mirrorOperands c) :
    ∃ d, c.fields[f]? = some d ∧ d.scope ≠ .global ∧ k < 4 := by
  simp only [mirrorOperands, List.mem_flatMap, List.mem_range] at h
  obtain ⟨g, hg, h⟩ := h
  rw [List.getElem?_eq_getElem hg, Option.map_some] at h
  cases hs : c.fields[g].scope <;> simp only [hs] at h
  · simp at h
  · simp only [List.mem_singleton, Prod.mk.injEq] at h
    obtain ⟨rfl, rfl⟩ := h
    exact ⟨_, List.getElem?_eq_getElem hg, by simp [hs], by omega⟩
  · simp only [List.mem_map, List.mem_range, Prod.mk.injEq] at h
    obtain ⟨k', hk, rfl, rfl⟩ := h
    exact ⟨_, List.getElem?_eq_getElem hg, by simp [hs], hk⟩

/-- Every register a channel has is named by some operands MIRROR goes through. -/
theorem mirrorOperands_complete {c : Config} {f k : Nat} {d : FieldDescriptor} (hf : c.fields[f]? = some d)
    (hd : d.scope ≠ .global) (hk : k < 4) :
    ∃ k', (f, k') ∈ mirrorOperands c ∧ ∀ ch, resolve c ch k' f = resolve c ch k f := by
  obtain ⟨hlt, hget⟩ := List.getElem?_eq_some_iff.1 hf
  have hmem : ∀ k', (f, k') ∈ (match (c.fields[f]?).map FieldDescriptor.scope with
      | some .slot => (List.range Config.nSlot).map fun k => (f, k)
      | some .channel => [(f, 0)]
      | _ => []) → (f, k') ∈ mirrorOperands c := fun k' h => by
    simp only [mirrorOperands, List.mem_flatMap, List.mem_range]
    exact ⟨f, hlt, h⟩
  cases hs : d.scope with
  | global => exact absurd hs hd
  | channel => exact ⟨0, hmem 0 (by simp [hf, hs]), fun ch => by simp [resolve, hf, hs, registerOffset]⟩
  | slot => exact ⟨k, hmem k (by simp [hf, hs, hk]), fun _ => rfl⟩

/-- A register of one channel that another channel's operands also name is that channel's own: the channels agree
(R121 condition 3). -/
theorem channel_of_register {c : Config} (h : c.wf = true) {ch slot f ch' slot' g o : Nat} {d e : FieldDescriptor}
    (hf : c.fields[f]? = some d) (hg : c.fields[g]? = some e) (hd : d.scope ≠ .global) (hs : slot < 4)
    (hs' : slot' < 4) (h1 : resolve c ch slot f = some o) (h2 : resolve c ch' slot' g = some o) : ch = ch' := by
  obtain ⟨d', hd', hc, -, ho⟩ := resolve_eq_some.1 h1
  obtain ⟨e', he', hc', -, ho'⟩ := resolve_eq_some.1 h2
  obtain rfl : d = d' := Option.some.inj (hf.symm.trans hd')
  obtain rfl : e = e' := Option.some.inj (hg.symm.trans he')
  obtain ⟨-, hsc, hu⟩ := registerOffset_inj h hf hg hc hc' hs hs' (ho.symm.trans ho')
  rw [← hsc] at hu
  cases hk : d.scope with
  | global => exact absurd hk hd
  | channel => rw [hk] at hu; exact (Prod.mk.inj hu).1
  | slot => rw [hk] at hu; exact (Prod.mk.inj hu).1

/-- What MIRROR's loop has done once the destination offsets `done` are done, the last one first. -/
structure Mirrored (s : State) (src dst : Nat) (acc : State × List Nat) : Prop where
  cfg : acc.1.cfg = s.cfg
  form : ShadowForm acc.1
  others : ∀ o, o ∉ acc.2 → shRead acc.1 o = shRead s o
  copied : ∀ od ∈ acc.2, ∃ f k os d, s.cfg.fields[f]? = some d ∧ d.scope ≠ .global ∧ k < 4 ∧
    resolve s.cfg src k f = some os ∧ resolve s.cfg dst k f = some od ∧ shRead acc.1 od = shRead s os
  bus : acc.1.bus = s.bus ++ acc.2.reverse.map fun o =>
    .w (chipRegister s.cfg o).bank (chipRegister s.cfg o).addr (shRead acc.1 o)

theorem mirrorTurn_mirrored {s : State} (h : s.cfg.wf = true) {src dst : Nat} {acc : State × List Nat} {f k : Nat}
    {d : FieldDescriptor} (hf : s.cfg.fields[f]? = some d) (hd : d.scope ≠ .global) (hk : k < 4)
    (hm : Mirrored s src dst acc) : Mirrored s src dst (mirrorTurn src dst acc (f, k)) := by
  rcases mirrorTurn_cases src dst acc (f, k) with he | ⟨os, od, hos, hod, hn, ho, he⟩
  · rwa [he]
  rw [hm.cfg] at hos hod ho
  have hsame : shRead acc.1 os = shRead s os := by
    refine hm.others os fun hmem => hn ?_
    obtain ⟨g, k', -, e, hg, hge, hk', -, hg', -⟩ := hm.copied os hmem
    have hch := channel_of_register h hf hg hd hk hk' hos hg'
    rw [hch, hod] at hos
    exact Option.some.inj hos ▸ hmem
  have hkeep : ∀ o, o ∈ acc.2 → shRead (putByte od (shRead acc.1 os) acc.1) o = shRead acc.1 o := fun o hmem =>
    shRead_putByte_ne fun heq => hn (heq ▸ hmem)
  rw [he]
  refine ⟨hm.cfg, putByte_form hm.form (hm.cfg.symm ▸ ho), fun o hmem => ?_, fun o hmem => ?_, ?_⟩
  · simp only [List.mem_cons, not_or] at hmem
    exact (shRead_putByte_ne hmem.1).trans (hm.others o hmem.2)
  · rcases List.mem_cons.1 hmem with rfl | hmem
    · exact ⟨f, k, os, d, hf, hd, hk, hos, hod, (shRead_putByte_self hm.form).trans hsame⟩
    · obtain ⟨g, k', os', e, hg, hge, hk', hs', hd', hv⟩ := hm.copied o hmem
      exact ⟨g, k', os', e, hg, hge, hk', hs', hd', (hkeep o hmem).trans hv⟩
  · simp only [putByte_bus, hm.bus, hm.cfg, List.reverse_cons, List.map_append, List.map_cons, List.map_nil,
      List.append_assoc, shRead_putByte_self hm.form]
    congr 2
    exact List.map_congr_left fun o hmem => by rw [hkeep o (List.mem_reverse.1 hmem)]

/-- MIRROR's loop from its start, over operands that name fields which are not Global. -/
theorem mirrorFold_mirrored {s : State} (h : s.cfg.wf = true) {src dst : Nat} (l : List (Nat × Nat))
    (hl : ∀ fk ∈ l, ∃ d, s.cfg.fields[fk.1]? = some d ∧ d.scope ≠ .global ∧ fk.2 < 4) {acc : State × List Nat}
    (hm : Mirrored s src dst acc) : Mirrored s src dst (l.foldl (mirrorTurn src dst) acc) := by
  induction l generalizing acc with
  | nil => exact hm
  | cons fk l ih =>
    obtain ⟨d, hf, hd, hk⟩ := hl fk (by simp)
    exact ih (fun x hx => hl x (by simp [hx])) (mirrorTurn_mirrored h hf hd hk hm)

/-- The offsets MIRROR's loop has done: the destination's, each once, the last one first. -/
theorem mirrorFold_done {s : State} (h : s.cfg.wf = true) {src dst : Nat} (hs : src < s.cfg.nCh) (hd : dst < s.cfg.nCh)
    (l : List (Nat × Nat)) (hl : ∀ fk ∈ l, ∃ d, s.cfg.fields[fk.1]? = some d ∧ d.scope ≠ .global ∧ fk.2 < 4)
    {acc : State × List Nat} (hc : acc.1.cfg = s.cfg) :
    (l.foldl (mirrorTurn src dst) acc).2.reverse =
      List.eraseDupsBy.loop (· == ·) (l.filterMap fun fk => resolve s.cfg dst fk.2 fk.1) acc.2 := by
  induction l generalizing acc with
  | nil => rfl
  | cons fk l ih =>
    obtain ⟨f, k⟩ := fk
    obtain ⟨d, hf, -, hk⟩ := hl (f, k) (by simp)
    have hos := resolve_of_wf (ch := src) h hf hk
    have hod := resolve_of_wf (ch := dst) h hf hk
    rw [if_neg (by omega)] at hos hod
    have ih' := fun {acc} => ih (fun x hx => hl x (by simp [hx])) (acc := acc)
    simp only [List.foldl_cons, mirrorTurn, hc, hos, hod]
    rw [List.filterMap_cons_some (f := fun fk : Nat × Nat => resolve s.cfg dst fk.2 fk.1) hod, List.eraseDupsBy.loop]
    have hany : acc.2.any (registerOffset s.cfg d.base d.scope dst k == ·) =
        decide (registerOffset s.cfg d.base d.scope dst k ∈ acc.2) := by
      simp [List.any_eq]
    by_cases hmem : registerOffset s.cfg d.base d.scope dst k ∈ acc.2
    · rw [if_pos hmem, ih' hc, hany, decide_eq_true hmem]
    · rw [if_neg hmem, ih' (by simpa using hc), hany, decide_eq_false hmem]

end Sys2Proof.Machine
end

