-- ==== Sys2Proof/Laws/PerInstr.lean ====
section
/-! SUPPORT. Per instruction: the encoding matches the opcode table's row of that mnemonic (R62, R69). -/

namespace Sys2Proof.Laws.TableRow

open Sys2Proof.Machine

/-- An item's bits match a row of its width. -/
def Matches (r : OpcodeRow) : Input → Prop
  | .command w => r.nbits = 24 ∧ w.toNat &&& r.mask = r.pattern
  | .midi b => r.nbits = 8 ∧ b.toNat &&& r.mask = r.pattern
  | .failure => False

/-- The encoding of the instruction matches a row of the opcode table that bears its mnemonic. -/
def Statement (i : Instr) : Prop :=
  ∃ r ∈ commandRows ++ midiRows, r.mnemonic = i.mnemonic ∧ Matches r (encode i)

theorem command_matches (op : Nibble) (x : BitVec 20) (m : String) :
    Matches ⟨m, 24, 0xF00000, op.toNat <<< 20⟩ (.command (commandWord op x)) :=
  ⟨rfl, by rw [and_opcode_mask, opcodeOf_commandWord]⟩

theorem status_matches (c n : Nibble) (m : String) :
    Matches ⟨m, 8, 0xF0, c.toNat <<< 4⟩ (.midi (statusByte c n)) := by
  have h : ∀ c n : Nibble, (statusByte c n).toNat &&& 0xF0 = c.toNat <<< 4 := by decide
  exact ⟨rfl, h c n⟩

theorem data_matches (d : BitVec 7) (m : String) : Matches ⟨m, 8, 0x80, 0⟩ (.midi (dataByte d)) := by
  have h : ∀ d : BitVec 7, (dataByte d).toNat &&& 0x80 = 0 := by decide
  exact ⟨rfl, h d⟩

theorem nop : Statement .nop :=
  ⟨⟨"NOP", 24, 0xF00000, 0x000000⟩, by decide, rfl, command_matches 0x0 _ _⟩

theorem feed (b : Byte) : Statement (.feed b) :=
  ⟨⟨"FEED", 24, 0xF00000, 0x100000⟩, by decide, rfl, command_matches 0x1 _ _⟩

theorem feedFail : Statement .feedFail :=
  ⟨⟨"FEED_FAIL", 24, 0xF00000, 0x200000⟩, by decide, rfl, command_matches 0x2 _ _⟩

theorem encFm (key : Key) : Statement (.encFm key) :=
  ⟨⟨"ENC_FM", 24, 0xF00000, 0x300000⟩, by decide, rfl, command_matches 0x3 _ _⟩

theorem encPsg (key : Key) : Statement (.encPsg key) :=
  ⟨⟨"ENC_PSG", 24, 0xF00000, 0x400000⟩, by decide, rfl, command_matches 0x4 _ _⟩

theorem encNoise (key : Key) : Statement (.encNoise key) :=
  ⟨⟨"ENC_NOISE", 24, 0xF00000, 0x500000⟩, by decide, rfl, command_matches 0x5 _ _⟩

theorem setField (ch : Nibble) (slot : SlotIndex) (field : FieldIndex) (value : Byte) : Statement (.setField ch slot field value) :=
  ⟨⟨"SETFIELD", 24, 0xF00000, 0x600000⟩, by decide, rfl, command_matches 0x6 _ _⟩

theorem getField (ch : Nibble) (slot : SlotIndex) (field : FieldIndex) : Statement (.getField ch slot field) :=
  ⟨⟨"GETFIELD", 24, 0xF00000, 0x700000⟩, by decide, rfl, command_matches 0x7 _ _⟩

theorem initVoice (ch : Nibble) : Statement (.initVoice ch) :=
  ⟨⟨"INIT_VOICE", 24, 0xF00000, 0x800000⟩, by decide, rfl, command_matches 0x8 _ _⟩

theorem mirror (src dst : Nibble) : Statement (.mirror src dst) :=
  ⟨⟨"MIRROR", 24, 0xF00000, 0x900000⟩, by decide, rfl, command_matches 0x9 _ _⟩

theorem busReset : Statement .busReset :=
  ⟨⟨"BUS_RESET", 24, 0xF00000, 0xA00000⟩, by decide, rfl, command_matches 0xA _ _⟩

theorem reservedB : Statement .reservedB :=
  ⟨⟨"RESERVED_B", 24, 0xF00000, 0xB00000⟩, by decide, rfl, command_matches 0xB _ _⟩

theorem reservedC : Statement .reservedC :=
  ⟨⟨"RESERVED_C", 24, 0xF00000, 0xC00000⟩, by decide, rfl, command_matches 0xC _ _⟩

theorem reservedD : Statement .reservedD :=
  ⟨⟨"RESERVED_D", 24, 0xF00000, 0xD00000⟩, by decide, rfl, command_matches 0xD _ _⟩

theorem reservedE : Statement .reservedE :=
  ⟨⟨"RESERVED_E", 24, 0xF00000, 0xE00000⟩, by decide, rfl, command_matches 0xE _ _⟩

theorem reservedF : Statement .reservedF :=
  ⟨⟨"RESERVED_F", 24, 0xF00000, 0xF00000⟩, by decide, rfl, command_matches 0xF _ _⟩

theorem data (d : BitVec 7) : Statement (.data d) :=
  ⟨⟨"DATA", 8, 0x80, 0x00⟩, by decide, rfl, data_matches d _⟩

theorem noteOff (channel : Nibble) : Statement (.noteOff channel) :=
  ⟨⟨"NOTE_OFF", 8, 0xF0, 0x80⟩, by decide, rfl, status_matches 0x8 channel _⟩

theorem noteOn (channel : Nibble) : Statement (.noteOn channel) :=
  ⟨⟨"NOTE_ON", 8, 0xF0, 0x90⟩, by decide, rfl, status_matches 0x9 channel _⟩

theorem polyPressure (channel : Nibble) : Statement (.polyPressure channel) :=
  ⟨⟨"POLY_PRESSURE", 8, 0xF0, 0xA0⟩, by decide, rfl, status_matches 0xA channel _⟩

theorem controlChange (channel : Nibble) : Statement (.controlChange channel) :=
  ⟨⟨"CONTROL_CHANGE", 8, 0xF0, 0xB0⟩, by decide, rfl, status_matches 0xB channel _⟩

theorem programChange (channel : Nibble) : Statement (.programChange channel) :=
  ⟨⟨"PROGRAM_CHANGE", 8, 0xF0, 0xC0⟩, by decide, rfl, status_matches 0xC channel _⟩

theorem channelPressure (channel : Nibble) : Statement (.channelPressure channel) :=
  ⟨⟨"CHANNEL_PRESSURE", 8, 0xF0, 0xD0⟩, by decide, rfl, status_matches 0xD channel _⟩

theorem pitchBend (channel : Nibble) : Statement (.pitchBend channel) :=
  ⟨⟨"PITCH_BEND", 8, 0xF0, 0xE0⟩, by decide, rfl, status_matches 0xE channel _⟩

theorem system (sub : Nibble) : Statement (.system sub) :=
  ⟨⟨"SYSTEM", 8, 0xF0, 0xF0⟩, by decide, rfl, status_matches 0xF sub _⟩

end Sys2Proof.Laws.TableRow
end

