-- ==== Sys2Proof/Tests/Slice0.lean ====
section
/-! SUPPORT. Tests of one step each, with expected values from spec/95_test_vectors.md and the encodings of R62, R68;
an ill-formed configuration for each check; a witness for the hypotheses of each obligation. -/

namespace Sys2Proof.Tests

open Sys2Proof.Machine

/-! The well-formedness check -/

theorem test_wf_reference : referenceConfig.wf = true := by decide
theorem test_wf_smaller_en : ({ referenceConfig with en := [0x9] } : Config).wf = true := by decide
theorem test_wf_refuses_enabled_pitch_bend : ({ referenceConfig with en := [0x9, 0xE] } : Config).wf = false := by
  decide
theorem test_wf_refuses_zero_first_entry :
    ({ referenceConfig with table := [0, 1, 2, 3, 4, 5, 6, 7, 8, 9, 10, 11] } : Config).wf = false := by decide
theorem test_wf_refuses_level_table :
    ({ referenceConfig with table := [1, 2, 3, 4, 5, 6, 7, 8, 9, 10, 11, 11] } : Config).wf = false := by decide
theorem test_wf_refuses_wide_block : ({ referenceConfig with maxBlock := 8 } : Config).wf = false := by decide
theorem test_wf_refuses_zero_divisor : ({ referenceConfig with refDivisor := 0 } : Config).wf = false := by decide
theorem test_wf_refuses_wide_mantissa : ({ referenceConfig with refDivisor := 8000 } : Config).wf = false := by decide
theorem test_wf_refuses_zero_numerator : ({ referenceConfig with psgNum := 0 } : Config).wf = false := by decide
theorem test_wf_refuses_unpinned_noise :
    ({ referenceConfig with noise := List.replicate 12 none } : Config).wf = false := by decide
theorem test_wf_refuses_field_across_bytes :
    ({ referenceConfig with fields := [⟨5, 4, 0, .slot⟩, ⟨4, 0, 0, .slot⟩, ⟨3, 3, 12, .channel⟩,
      ⟨3, 0, 12, .channel⟩] } : Config).wf = false := by decide
theorem test_wf_refuses_base_beyond_shadow :
    ({ referenceConfig with nCh := 0, fields := [⟨3, 4, 32, .slot⟩, ⟨4, 0, 32, .slot⟩, ⟨3, 3, 12, .channel⟩,
      ⟨3, 0, 12, .channel⟩] } : Config).wf = false := by decide
theorem test_wf_admits_base_at_the_end :
    ({ referenceConfig with nCh := 0, fields := [⟨3, 4, 31, .slot⟩, ⟨4, 0, 31, .slot⟩, ⟨3, 3, 12, .channel⟩,
      ⟨3, 0, 12, .channel⟩] } : Config).wf = true := by decide
theorem test_wf_refuses_small_shadow :
    ({ referenceConfig with shadowSize := 30, addrMap := referenceConfig.addrMap.take 30 } : Config).wf = false := by
  decide
theorem test_wf_refuses_shared_offset : ({ referenceConfig with bankStride := 0 } : Config).wf = false := by decide
theorem test_wf_refuses_overlapping_fields :
    ({ referenceConfig with fields := [⟨3, 4, 0, .slot⟩, ⟨5, 0, 0, .slot⟩, ⟨3, 3, 12, .channel⟩,
      ⟨3, 0, 12, .channel⟩] } : Config).wf = false := by decide
theorem test_wf_refuses_empty_bank : ({ referenceConfig with chPerBank := 0, nCh := 0 } : Config).wf = false := by
  decide
theorem test_wf_refuses_unknown_default_field :
    ({ referenceConfig with defaultVoice := [⟨6, 0, 1⟩] } : Config).wf = false := by decide
theorem test_wf_refuses_repeated_register :
    ({ referenceConfig with addrMap := List.replicate 32 ⟨0, 0x30⟩ } : Config).wf = false := by decide

/-- R60: the codes of the three scope tags. -/
theorem test_scope_codes : scopeCode .global = 0 ∧ scopeCode .channel = 1 ∧ scopeCode .slot = 2 := by decide

/-! Decoding, by words written out from R62 (op, 19:16, 15:14, 13:8, 7:0), R68 and V45 -/

theorem test_decode_nop : decodeCommand 0b0000_1111_1111111111111111 = .nop := by decide
theorem test_decode_feed : decodeCommand 0b0001_1010_101111001001_0000 = .feed 0x90 := by decide
theorem test_decode_feed_fail : decodeCommand 0x2FFFFF = .feedFail := by decide
theorem test_decode_enc_fm : decodeCommand 0x3FFFBC = .encFm 60 := by decide
theorem test_decode_enc_psg : decodeCommand 0x4000C5 = .encPsg 69 := by decide
theorem test_decode_enc_noise : decodeCommand 0x5123C2 = .encNoise 66 := by decide
theorem test_decode_setfield : decodeCommand 0b0110_0010_11_000001_00001111 = .setField 2 3 1 15 := by decide
theorem test_decode_getfield : decodeCommand 0b0111_0001_01_000010_11111111 = .getField 1 1 2 := by decide
theorem test_decode_init_voice : decodeCommand 0x84FFFF = .initVoice 4 := by decide
theorem test_decode_mirror : decodeCommand 0b1001_0011_0101_111111111111 = .mirror 3 5 := by decide
theorem test_decode_bus_reset : decodeCommand 0xAFFFFF = .busReset := by decide
theorem test_decode_reserved :
    decodeCommand 0xB00000 = .reservedB ∧ decodeCommand 0xC12345 = .reservedC ∧ decodeCommand 0xD00000 = .reservedD ∧
      decodeCommand 0xE00000 = .reservedE ∧ decodeCommand 0xFFFFFF = .reservedF := by decide
theorem test_decode_data : decodeMidi 0b0_0111100 = .data 60 ∧ decodeMidi 0x7F = .data 127 := by decide
theorem test_decode_status :
    decodeMidi 0b1000_0010 = .noteOff 2 ∧ decodeMidi 0b1001_1111 = .noteOn 15 ∧
      decodeMidi 0b1010_0011 = .polyPressure 3 ∧ decodeMidi 0b1011_0001 = .controlChange 1 ∧
      decodeMidi 0b1100_0101 = .programChange 5 ∧ decodeMidi 0b1101_0010 = .channelPressure 2 ∧
      decodeMidi 0b1110_0000 = .pitchBend 0 ∧ decodeMidi 0b1111_1110 = .system 14 := by decide
theorem test_decode_other_width : decodeTableWord 16 0x1234 = none := by decide
theorem test_encode_setfield : encode (.setField 5 3 0 5) = .command 0x65C005 := by decide
theorem test_encode_mirror : encode (.mirror 3 0) = .command 0x930000 := by decide

/-! One step each -/

/-- Whether an outcome is a next state that passes a check. -/
def ran (o : Host.Outcome State Fault Refusal) (check : State → Bool) : Bool :=
  match o with
  | .next t => check t
  | .fault _ => false
  | .refused _ => false

/-- Whether an outcome is this refusal. -/
def refusedWith (o : Host.Outcome State Fault Refusal) (r : Refusal) : Bool :=
  match o with
  | .next _ => false
  | .fault _ => false
  | .refused q => q == r

/-- The reset state with these registers. -/
def withMpa (m : Mpa) : State := { State.reset with mpa := m }

/-- The reset state with this shadow. -/
def withShadow (sh : Memory) : State := { State.reset with sh := sh }

/-- A Note-On on channel 0 with its key received (V6, V10 before their third step). -/
def midPacket : State := withMpa ⟨.awaitData, 0x90, 3, 2, 0x3C⟩

/-- V42. -/
theorem test_nop : ran (step (midPacket.withFetchWord 24 0x0FFFFF)) (· == midPacket) = true := by decide

/-- V1, its last step. -/
theorem test_feed_completes :
    ran (step ((withMpa ⟨.awaitData, 0x93, 3, 2, 0x3C⟩).withFetchWord 24 0x100064))
      (fun t => resultWord t.result == 0x14DE64 && t.mpa == Mpa.idle) = true := by decide

/-- V6, its third step. -/
theorem test_feed_resync :
    ran (step (midPacket.withFetchWord 24 0x100081))
      (fun t => t.mpa == ⟨.awaitData, 0x81, 3, 1, 0⟩ && t.result == .none) = true := by decide

/-- V10, its third step. -/
theorem test_feed_fail : ran (step (midPacket.withFetchWord 24 0x200000)) (fun t => t.mpa == Mpa.idle) = true := by
  decide

/-- V17, key 0: the block clamped up to 0. -/
theorem test_enc_fm_lowest :
    ran (step (State.reset.withFetchWord 24 0x300000)) (fun t => resultWord t.result == 0x100269) = true := by decide

/-- V17, key 120: the block clamped down to 7. -/
theorem test_enc_fm_clamped :
    ran (step (State.reset.withFetchWord 24 0x300078)) (fun t => t.result == .fmCode 0x3A69) = true := by decide

/-- V18, key 0: four halvings. -/
theorem test_enc_psg_lowest :
    ran (step (State.reset.withFetchWord 24 0x400000)) (fun t => t.result == .psgPeriod 955) = true := by decide

/-- V18, key 96: the numerator shifted right before the division. -/
theorem test_enc_psg_high :
    ran (step (State.reset.withFetchWord 24 0x400060)) (fun t => t.result == .psgPeriod 60) = true := by decide

/-- V19, keys 120 and 126. -/
theorem test_enc_noise_c :
    ran (step (State.reset.withFetchWord 24 0x500078)) (fun t => t.result == .noiseCode 0b000) = true := by decide
theorem test_enc_noise_f_sharp :
    ran (step (State.reset.withFetchWord 24 0x50007E)) (fun t => t.result == .noiseCode 0b101) = true := by decide

/-- V28, its fifth step: a value wider than the field. -/
theorem test_setfield_masks :
    ran (step ((withShadow [(0, 0x71)]).withFetchWord 24 0x60012C))
      (fun t => t.sh == [(0, 0x7C)] && t.bus == [.w 0 0x30 0x7C] && t.result == .none) = true := by decide

/-- V34, its second step: channel 6 rejected. -/
theorem test_setfield_rejects :
    ran (step (State.reset.withFetchWord 24 0x660007)) (· == State.reset) = true := by decide

/-- V28, its sixth step; V34, its fourth. -/
theorem test_getfield :
    ran (step ((withShadow [(0, 0x7C)]).withFetchWord 24 0x700000)) (fun t => t.result == .value 0x07) = true := by
  decide
theorem test_getfield_rejects :
    ran (step (State.reset.withFetchWord 24 0x760000)) (fun t => t.result == .none) = true := by decide

/-- V31. -/
theorem test_init_voice :
    ran (step (State.reset.withFetchWord 24 0x840000))
      (fun t => t.sh == [(17, 0x71), (20, 0x71), (23, 0x71), (26, 0x71), (29, 0x07)] &&
        t.bus == [.w 1 0x31 0x70, .w 1 0x31 0x71, .w 1 0x35 0x70, .w 1 0x35 0x71, .w 1 0x39 0x70, .w 1 0x39 0x71,
          .w 1 0x3D 0x70, .w 1 0x3D 0x71, .w 1 0xB1 0x00, .w 1 0xB1 0x07]) = true := by decide

/-- V39, its fourth step. -/
theorem test_init_voice_rejects :
    ran (step (State.reset.withFetchWord 24 0x860000)) (· == State.reset) = true := by decide

/-- V40, its third step: the destination is overwritten whole. -/
theorem test_mirror :
    ran (step ((withShadow [(0, 0x03), (16, 0x05)]).withFetchWord 24 0x930000))
      (fun t => t.sh == [(0, 0x05), (16, 0x05)] &&
        t.bus == [.w 0 0x30 0x05, .w 0 0x34 0x00, .w 0 0x38 0x00, .w 0 0x3C 0x00, .w 0 0xB0 0x00]) = true := by decide

/-- V39, its second step. -/
theorem test_mirror_rejects :
    ran (step (State.reset.withFetchWord 24 0x906000)) (· == State.reset) = true := by decide

/-- V43, its fourth step. -/
theorem test_bus_reset :
    ran (step (({ midPacket with sh := [(0, 0x71)] } : State).withFetchWord 24 0xA00000))
      (fun t => t.sh == [] && t.bus == [.rst] && t.mpa == midPacket.mpa) = true := by decide

/-- V44. -/
theorem test_reserved_b :
    refusedWith (step (State.reset.withFetchWord 24 0xB00000)) (.reservedOperation 0xB) = true := by decide
theorem test_reserved_c :
    refusedWith (step (State.reset.withFetchWord 24 0xC12345)) (.reservedOperation 0xC) = true := by decide
theorem test_reserved_d :
    refusedWith (step (State.reset.withFetchWord 24 0xD00000)) (.reservedOperation 0xD) = true := by decide
theorem test_reserved_e :
    refusedWith (step (State.reset.withFetchWord 24 0xE00000)) (.reservedOperation 0xE) = true := by decide
theorem test_reserved_f :
    refusedWith (step (State.reset.withFetchWord 24 0xFFFFFF)) (.reservedOperation 0xF) = true := by decide

/-- V12, its third step; V1, its second. -/
theorem test_data_completes :
    ran (step ((withMpa ⟨.awaitData, 0x9F, 3, 2, 0x7F⟩).withFetchWord 8 0x7F))
      (fun t => resultWord t.result == 0x17FFFF) = true := by decide
theorem test_data_kept :
    ran (step ((withMpa ⟨.awaitData, 0x93, 3, 1, 0⟩).withFetchWord 8 0x3C))
      (fun t => t.mpa == ⟨.awaitData, 0x93, 3, 2, 0x3C⟩ && t.result == .none) = true := by decide

/-- V2, its first step; V13, its first step, with `EN = {0x9}`. -/
theorem test_note_off :
    ran (step (State.reset.withFetchWord 8 0x82)) (fun t => t.mpa == ⟨.awaitData, 0x82, 3, 1, 0⟩) = true := by decide
theorem test_note_off_not_enabled :
    ran (step (({ State.reset with cfg := { referenceConfig with en := [0x9] } } : State).withFetchWord 8 0x80))
      (fun t => t.mpa == Mpa.idle) = true := by decide

/-- V16, its second step; V3, its first. -/
theorem test_note_on :
    ran (step ((withMpa ⟨.awaitData, 0x90, 3, 1, 0⟩).withFetchWord 8 0x91))
      (fun t => t.mpa == ⟨.awaitData, 0x91, 3, 1, 0⟩) = true := by decide
theorem test_control_change :
    ran (step (State.reset.withFetchWord 8 0xB1)) (fun t => t.mpa == ⟨.awaitData, 0xB1, 3, 1, 0⟩) = true := by decide

/-- V14, V7, V8: the commands that are never enabled, inside a packet. -/
theorem test_poly_pressure : ran (step (midPacket.withFetchWord 8 0xA3)) (fun t => t.mpa == Mpa.idle) = true := by
  decide
theorem test_program_change : ran (step (midPacket.withFetchWord 8 0xC0)) (fun t => t.mpa == Mpa.idle) = true := by
  decide
theorem test_channel_pressure : ran (step (midPacket.withFetchWord 8 0xD2)) (fun t => t.mpa == Mpa.idle) = true := by
  decide
theorem test_pitch_bend : ran (step (midPacket.withFetchWord 8 0xE0)) (fun t => t.mpa == Mpa.idle) = true := by decide
theorem test_system : ran (step (midPacket.withFetchWord 8 0xF8)) (fun t => t.mpa == Mpa.idle) = true := by decide

/-- R65, R55: an event of all zeros is not `none` (V12, its last step). -/
theorem test_zero_event : resultWord (.event ⟨0b00, 0, 0, 0⟩) = 0x100000 ∧ resultWord .none = 0 := by decide

/-! Witnesses: concrete data that meet the hypotheses of each obligation together -/

theorem reset_wf : State.reset.cfg.wf = true := by decide

theorem reset_form : ShadowForm State.reset := ⟨rfl, by simp⟩

theorem reset_inv : State.reset.Inv := ⟨⟨rfl, rfl, rfl, rfl⟩, reset_form, fun _ _ => rfl⟩

/-- A state that is not the reset one: two bytes listed. -/
def written : State := withShadow [(0, 0x71), (27, 0x50)]

theorem written_form : ShadowForm written := by
  refine ⟨by decide, ?_⟩
  decide

theorem witness_NopHasNoEffect : opcodeOf 0x0FFFFF = 0x0 ∧ State.reset.cfg.wf = true := by decide
theorem witness_BusResetClearsShadow :
    opcodeOf 0xAFFFFF = 0xA ∧ written.cfg.wf = true ∧ 31 < written.cfg.shadowSize := by decide
theorem witness_ReservedCodesRefused :
    0xB ≤ (opcodeOf 0xB00000).toNat ∧ 0xB ≤ (opcodeOf 0xFFFFFF).toNat := by decide
theorem witness_FeedFailAbortsPacket : opcodeOf 0x2FFFFF = 0x2 ∧ midPacket.cfg.wf = true := by decide
theorem witness_EnabledStatusByteBeginsPacket :
    State.reset.cfg.wf = true ∧ (0xBF : Byte).getLsbD 7 = true ∧ commandNibble 0xBF ∈ State.reset.cfg.en := by decide
theorem witness_DisabledStatusByteDiscarded :
    midPacket.cfg.wf = true ∧ (0xC5 : Byte).getLsbD 7 = true ∧ commandNibble 0xC5 ∉ midPacket.cfg.en ∧
      (0x07 : Byte).getLsbD 7 = false := by decide
theorem witness_StatusByteForgetsThePacket :
    midPacket.cfg.wf = true ∧ (0x81 : Byte).getLsbD 7 = true ∧ commandNibble 0x81 ∈ midPacket.cfg.en ∧
      (0xFF : Byte).getLsbD 7 = true ∧ commandNibble 0xFF ∉ midPacket.cfg.en := by decide
theorem witness_StrayDataByteDropped :
    State.reset.cfg.wf = true ∧ (0x40 : Byte).getLsbD 7 = false ∧ State.reset.mpa.st = .awaitStatus := by decide

/-- One data byte awaited after the status byte. -/
def begun : State := withMpa ⟨.awaitData, 0x93, 3, 1, 0⟩

theorem witness_FirstDataByteKept :
    begun.cfg.wf = true ∧ (0x3C : Byte).getLsbD 7 = false ∧ begun.mpa.st = .awaitData ∧
      begun.mpa.cnt.toNat + 1 < begun.mpa.need.toNat := by decide
theorem witness_LastDataByteEmitsEvent :
    ∀ status ∈ [(0x82 : Byte), 0x9F, 0xB0],
      (withMpa ⟨.awaitData, status, 3, 2, 0x3C⟩).cfg.wf = true ∧ (0x64 : Byte).getLsbD 7 = false ∧
      (withMpa ⟨.awaitData, status, 3, 2, 0x3C⟩).mpa.cnt.toNat + 1 =
        (withMpa ⟨.awaitData, status, 3, 2, 0x3C⟩).mpa.need.toNat ∧
      (commandNibble status = 0x8 ∨ commandNibble status = 0x9 ∨ commandNibble status = 0xB) := by decide
theorem witness_TransitionTable :
    Mpa.idle.Legal referenceConfig ∧ begun.mpa.Legal referenceConfig ∧ midPacket.mpa.Legal referenceConfig ∧
      begun.mpa.cnt = 1 ∧ midPacket.mpa.cnt = 2 ∧ (0x80 : Byte).getLsbD 7 = true ∧
      commandNibble 0x80 ∈ referenceConfig.en ∧ commandNibble 0xFF ∉ referenceConfig.en ∧
      (0x7F : Byte).getLsbD 7 = false :=
  ⟨⟨rfl, rfl, rfl, rfl⟩, ⟨by decide, by decide, by decide, by decide, by decide, by decide⟩,
    ⟨by decide, by decide, by decide, by decide, by decide, by decide⟩, by decide⟩
theorem witness_EnabledCommandsAssemble :
    (0x8 ∈ State.reset.cfg.en ∧ 0x9 ∈ State.reset.cfg.en ∧ 0xB ∈ State.reset.cfg.en ∧ State.reset.cfg.wf = true) ∧
      ({ referenceConfig with en := [] } : Config).wf = true := by decide
theorem witness_NeverEnabledCommandsDiscarded : midPacket.cfg.wf = true := by decide
theorem witness_DataByteByState :
    State.reset.mpa.st = .awaitStatus ∧ begun.mpa.cnt.toNat + 1 < begun.mpa.need.toNat ∧
      midPacket.mpa.cnt.toNat + 1 = midPacket.mpa.need.toNat ∧ begun.mpa.st = .awaitData ∧
      midPacket.mpa.st = .awaitData := by decide
theorem witness_NoteOnSurvivesInterleaving :
    State.reset.cfg.wf = true ∧ State.reset.mpa.st = .awaitStatus ∧ 0x9 ∈ State.reset.cfg.en ∧
      ∀ i ∈ [Instr.nop, .setField 0 0 0 7] ++ [.busReset], isMidiOp i = false ∧ isReserved i = false := by decide
theorem witness_EmittedKindIsOneOfThree :
    midPacket.mpa.Legal midPacket.cfg ∧
      ∃ t e, exec (.feed 0x64) midPacket = .next t ∧ t.result = .event e :=
  ⟨⟨by decide, by decide, by decide, by decide, by decide, by decide⟩, _, _,
    exec_of_wf rfl (by decide), rfl⟩
theorem witness_EncFmCode : opcodeOf 0x3FFFFF = 0x3 ∧ State.reset.cfg.wf = true := by decide
/-- Key pairs 60 and 72 inside the clamp, 0 and 12 at its lower bound, 96 and 108 at its upper. -/
theorem witness_OctaveApartKeys :
    (72 : Key).toNat = (60 : Key).toNat + 12 ∧ (12 : Key).toNat = (0 : Key).toNat + 12 ∧
      (108 : Key).toNat = (96 : Key).toNat + 12 ∧
      0 ≤ ((60 : Key).toNat / 12 : Nat) + referenceConfig.octaveOffset ∧
      ((60 : Key).toNat / 12 : Nat) + referenceConfig.octaveOffset < referenceConfig.maxBlock ∧
      ((12 : Key).toNat / 12 : Nat) + referenceConfig.octaveOffset ≤ 0 ∧
      (referenceConfig.maxBlock : Int) ≤ ((96 : Key).toNat / 12 : Nat) + referenceConfig.octaveOffset := by decide
/-- V18, key 45. -/
theorem witness_EncPsgPeriod :
    opcodeOf 0x40002D = 0x4 ∧ referenceConfig.wf = true ∧ 31680 = referenceConfig.table.getD ((45 : Key).toNat % 12) 0 ∧
      36000000 = (if (45 : Key).toNat / 12 ≤ referenceConfig.psgRefOct
        then referenceConfig.psgNum * 2 ^ (referenceConfig.psgRefOct - (45 : Key).toNat / 12)
        else referenceConfig.psgNum / 2 ^ ((45 : Key).toNat / 12 - referenceConfig.psgRefOct)) ∧
      1136 = (36000000 + 31680 / 2) / 31680 := by decide
theorem witness_EncNoiseCode :
    opcodeOf 0x50003C = 0x5 ∧ State.reset.cfg.wf = true ∧
      State.reset.cfg.noise[(126 : Key).toNat % 12]? = some (some ⟨.white, .rate1024⟩) ∧
      (127 : Key).toNat % 12 = (7 : Key).toNat % 12 := by decide
theorem witness_NoiseEntriesOfTheSource :
    State.reset.cfg.wf = true ∧ (120 : Key).toNat % 12 = 0 ∧ (126 : Key).toNat % 12 = 6 := by decide
theorem witness_FrequencyOpsArePure :
    midPacket.cfg.wf = true ∧ written.cfg.wf = true ∧ midPacket.cfg.table = written.cfg.table ∧
      midPacket.cfg.noise = written.cfg.noise ∧ midPacket.cfg.octaveOffset = written.cfg.octaveOffset ∧
      midPacket.cfg.maxBlock = written.cfg.maxBlock ∧ midPacket.cfg.refDivisor = written.cfg.refDivisor ∧
      midPacket.cfg.psgNum = written.cfg.psgNum ∧ midPacket.cfg.psgRefOct = written.cfg.psgRefOct ∧
      midPacket.cfg.psgMax = written.cfg.psgMax := by decide
theorem witness_ReferenceTableIsEqualTempered : (0 : Nat) < 12 ∧ (11 : Nat) < 12 := by decide
/-- Field 6 is none, 4 is Global, 2 Channel, 0 Slot; channel 5 is the last, 6 is none. -/
theorem witness_ResolveByScope :
    referenceConfig.wf = true ∧ 3 < 4 ∧ referenceConfig.nFields ≤ 6 ∧
      referenceConfig.fields[4]? = some ⟨1, 3, 15, .global⟩ ∧ referenceConfig.fields[2]? = some ⟨3, 3, 12, .channel⟩ ∧
      referenceConfig.fields[0]? = some ⟨3, 4, 0, .slot⟩ ∧ 5 < referenceConfig.nCh ∧ referenceConfig.nCh ≤ 6 := by
  decide
theorem witness_OneOffsetPerRegister :
    referenceConfig.wf = true ∧ referenceConfig.fields[0]? = some ⟨3, 4, 0, .slot⟩ ∧
      referenceConfig.fields[1]? = some ⟨4, 0, 0, .slot⟩ ∧ resolve referenceConfig 5 3 0 = some 27 ∧
      resolve referenceConfig 5 3 1 = some 27 := by decide
theorem witness_SetFieldWritesMirrorAndBus :
    opcodeOf 0x6FFFFF = 0x6 ∧ written.cfg.wf = true ∧ resolve written.cfg 6 0 0 = none ∧
      written.cfg.fields[0]? = some ⟨3, 4, 0, .slot⟩ ∧ resolve written.cfg 5 3 0 = some 27 := by decide
theorem witness_SetFieldDisturbsNothingElse :
    written.cfg.wf = true ∧ ShadowForm written ∧ written.cfg.fields[1]? = some ⟨4, 0, 0, .slot⟩ ∧
      resolve written.cfg 0 0 1 = some 0 :=
  ⟨by decide, written_form, by decide, by decide⟩
theorem witness_GetFieldReadsTheShadow :
    opcodeOf 0x7000FF = 0x7 ∧ written.cfg.wf = true ∧ resolve written.cfg 0 0 6 = none ∧
      written.cfg.fields[4]? = some ⟨1, 3, 15, .global⟩ ∧ resolve written.cfg 15 3 4 = some 15 := by decide
/-- Between the write and the read: another field of the byte, the same field elsewhere, other channels' voices. -/
theorem witness_FieldRoundTrip :
    written.cfg.wf = true ∧ ShadowForm written ∧ written.cfg.fields[0]? = some ⟨3, 4, 0, .slot⟩ ∧
      resolve written.cfg 0 0 0 = some 0 ∧
      ∀ i ∈ [Instr.setField 0 0 1 5, .setField 0 1 0 3, .initVoice 15, .mirror 6 0, .feed 0x90],
        sparesField written.cfg 0 0 i := by
  refine ⟨by decide, written_form, by decide, by decide, ?_⟩
  simp only [List.mem_cons, List.not_mem_nil, or_false, forall_eq_or_imp, forall_eq]
  refine ⟨fun h => absurd h (by decide), fun _ => by decide, fun h => absurd h (by decide),
    fun h => absurd h (by decide), trivial⟩
theorem witness_RejectionIsAllOrNothing :
    written.cfg.wf = true ∧ resolve written.cfg 15 3 63 = none ∧ written.cfg.nCh ≤ (6 : Nibble).toNat ∧
      5 < written.cfg.nCh ∧ ⟨3, 0, 7⟩ ∈ written.cfg.defaultVoice := by decide
theorem witness_InitVoiceIsItsFieldWrites :
    opcodeOf 0x85FFFF = 0x8 ∧ written.cfg.wf = true ∧ written.cfg.nCh ≤ (6 : Nibble).toNat ∧
      (5 : Nibble).toNat < written.cfg.nCh := by decide
theorem witness_InitVoiceLeavesOtherBytes :
    written.cfg.wf = true ∧ ∀ e ∈ written.cfg.defaultVoice, resolve written.cfg 0 e.slot e.field ≠ some 15 := by decide
theorem witness_DefaultVoiceReadsBack : (5 : Nibble).toNat < 6 ∧ 3 < 4 := by decide
theorem witness_MirrorCopiesEveryRegister :
    opcodeOf 0x905FFF = 0x9 ∧ written.cfg.wf = true ∧ ShadowForm written ∧ written.cfg.nCh ≤ (6 : Nibble).toNat ∧
      (0 : Nibble).toNat < written.cfg.nCh ∧ (5 : Nibble).toNat < written.cfg.nCh ∧
      written.cfg.fields[0]? = some ⟨3, 4, 0, .slot⟩ ∧ resolve written.cfg 0 3 0 = some 9 ∧
      resolve written.cfg 5 3 0 = some 27 ∧
      ∀ f ∈ List.range 6, ∀ k ∈ List.range 4, f < 4 → resolve written.cfg 5 k f ≠ some 15 :=
  ⟨by decide, by decide, written_form, by decide⟩
theorem witness_MirrorAgreesWithInitVoice :
    written.cfg.wf = true ∧ ShadowForm written ∧ (0 : Nibble).toNat < written.cfg.nCh ∧
      (5 : Nibble).toNat < written.cfg.nCh :=
  ⟨by decide, written_form, by decide⟩
theorem witness_ShadowWriteThenRead : Memory.wf 0x00 [(0, 0x71), (27, 0x50)] = true := by decide
theorem witness_PacketOpsTouchOnlyTheAssembler :
    isMidiOp (.feed 0x64) = true ∧ ∃ t, exec (.feed 0x64) midPacket = .next t :=
  ⟨rfl, _, exec_of_wf rfl (by decide)⟩
theorem witness_ReadersChangeOnlyTheResult :
    isMidiOp (.encFm 60) = false ∧ isShadowWriter (.encFm 60) = false ∧ ∃ t, exec (.encFm 60) written = .next t :=
  ⟨rfl, rfl, _, exec_of_wf rfl (by decide)⟩
theorem witness_ShadowOpsLeaveTheAssembler :
    isShadowWriter (.mirror 0 5) = true ∧ ∃ t, exec (.mirror 0 5) midPacket = .next t :=
  ⟨rfl, _, exec_of_wf rfl (by decide)⟩
/-- FEED in two states that differ in the shadow; SETFIELD in two that differ in the registers. -/
theorem witness_UnitsAreIndependent :
    (written.cfg = State.reset.cfg ∧ (∃ t, exec (.feed 0x90) written = .next t) ∧
      (∃ t, exec (.feed 0x90) State.reset = .next t) ∧ isMidiOp (.feed 0x90) = true ∧ written.mpa = State.reset.mpa) ∧
    (∃ t, exec (.setField 0 0 0 7) midPacket = .next t) ∧ (∃ t, exec (.setField 0 0 0 7) State.reset = .next t) ∧
      isMidiOp (.setField 0 0 0 7) = false ∧ midPacket.sh = State.reset.sh ∧ midPacket.bus = State.reset.bus :=
  ⟨⟨rfl, ⟨_, exec_of_wf rfl (by decide)⟩, ⟨_, exec_of_wf rfl reset_wf⟩, rfl, rfl⟩,
    ⟨_, exec_of_wf rfl (by decide)⟩, ⟨_, exec_of_wf rfl reset_wf⟩, rfl, rfl, rfl⟩
theorem witness_ConfigurationNeverChanges :
    (∃ t, exec .busReset written = .next t) ∧ ∃ t, step (present (.command 0xA00000) written) = .next t :=
  ⟨⟨_, exec_of_wf rfl (by decide)⟩, _, exec_of_wf (i := .busReset) rfl (by decide)⟩
theorem witness_BusHistoryOnlyGrows :
    isShadowWriter .nop = false ∧ (∃ t, exec .nop written = .next t) ∧ ∃ t, exec (.initVoice 5) written = .next t :=
  ⟨rfl, ⟨_, exec_of_wf rfl (by decide)⟩, _, exec_of_wf rfl (by decide)⟩
theorem witness_AdmittedOperationsComplete : written.cfg.wf = true ∧ isReserved (.mirror 0 5) = false := by decide
theorem witness_IllFormedConfigurationRefused :
    ({ State.reset with cfg := { referenceConfig with refDivisor := 0 } } : State).cfg.wf = false ∧
      isReserved .nop = false := by decide
theorem witness_StepKeepsTheInvariant :
    (present (.command 0x840000) State.reset).Inv ∧
      ∃ t, step (present (.command 0x840000) State.reset) = .next t :=
  ⟨reset_inv, _, exec_of_wf (i := .initVoice 4) rfl reset_wf⟩
theorem witness_StepRunsTheDecodedItem :
    (present (.midi 0x90) State.reset).pending = .midi 0x90 :: [] ∧ State.reset.pending = [] := by decide
/-- A host that knows controllers 1 (Global), 7 (per channel) and 9 (per slot). -/
def host : DispatcherTables where
  ccGlobal := [(1, 5)]
  ccChannel := [(7, 3)]
  ccSlot := [(9, 1, 2)]
  frequency := fun _ code => [⟨0, 2, code.setWidth 8⟩]
  extended := fun _ code => [(2, ⟨1, 0, code.setWidth 8⟩)]
  level := fun _ _ => []
  operatorsOff := fun voice => [⟨0, 4, voice.setWidth 8⟩]
  operatorsOn := fun _ => []
/-- R151, R156: a per-channel controller sets its field on an FM voice and nothing on extended FM addressing. -/
theorem test_controller_on_voice_and_extended :
    dispatchController host 2 7 100 = [.op (.setField 2 0 3 100)] ∧ dispatchController host 11 7 100 = [] ∧
      dispatchController host 11 1 100 = [.op (.setField 11 0 5 100)] := by decide
/-- R151, R155: a Note-Off writes its own voice, and nothing on extended FM addressing. -/
theorem test_note_off_own_voice :
    dispatchEvent host referenceConfig ⟨0b00, 2, 60, 64⟩ = [.op (.setField 2 0 4 2)] ∧
      dispatchEvent host referenceConfig ⟨0b00, 12, 60, 64⟩ = [] := by decide
/-- R192: one channel initialised, the other five mirrored from it. -/
theorem test_boot_by_mirror :
    bootOpsByMirror referenceConfig 2 = [.busReset, .initVoice 2, .mirror 2 0, .mirror 2 1, .mirror 2 3, .mirror 2 4,
      .mirror 2 5] := by decide
theorem witness_UnrecognisedControllerDoesNothing :
    (withMpa ⟨.awaitData, 0xB1, 3, 2, 64⟩).cfg.wf = true ∧
      (withMpa ⟨.awaitData, 0xB1, 3, 2, 64⟩).mpa.cnt.toNat + 1 =
        (withMpa ⟨.awaitData, 0xB1, 3, 2, 64⟩).mpa.need.toNat ∧
      commandNibble (withMpa ⟨.awaitData, 0xB1, 3, 2, 64⟩).mpa.status = 0xB ∧ lookupController host 64 = none := by decide
theorem witness_ChannelPartition :
    (5 : Nibble).toNat ≤ 5 ∧ 6 ≤ (8 : Nibble).toNat ∧ (8 : Nibble).toNat ≤ 8 ∧ (9 : Nibble).toNat = 9 ∧
      10 ≤ (12 : Nibble).toNat ∧ (12 : Nibble).toNat ≤ 12 ∧ 13 ≤ (⟨0b01, 13, 60, 100⟩ : MidiEvent).channel.toNat ∧
      (⟨0b01, 12, 60, 100⟩ : MidiEvent).kind = 0b01 ∧
      .op (.setField 5 0 4 5) ∈ dispatchEvent host referenceConfig ⟨0b00, 5, 60, 64⟩ := by
  decide
theorem witness_ControllerTablesInOrder :
    (9 : Nibble).toNat ≤ 9 ∧ ¬(10 : Nibble).toNat ≤ 9 ∧ (12 : Nibble).toNat ≤ 12 ∧ host.ccGlobal.lookup 1 = some 5 ∧ host.ccGlobal.lookup 7 = none ∧
      host.ccChannel.lookup 7 = some 3 ∧ host.ccGlobal.lookup 9 = none ∧ host.ccChannel.lookup 9 = none ∧
      host.ccSlot.lookup 9 = some (1, 2) := by decide
theorem witness_NoteOffSilencesItsChannel :
    (⟨0b00, 5, 60, 0⟩ : MidiEvent).kind = 0b00 ∧ (⟨0b00, 5, 60, 0⟩ : MidiEvent).channel.toNat ≤ 5 ∧
      6 ≤ (⟨0b00, 9, 60, 0⟩ : MidiEvent).channel.toNat ∧ (⟨0b00, 9, 60, 0⟩ : MidiEvent).channel.toNat ≤ 9 ∧
      10 ≤ (⟨0b00, 10, 60, 0⟩ : MidiEvent).channel.toNat := by decide

end Sys2Proof.Tests
end

section
/-! The state after reset (R27). -/

namespace Sys2Proof.Machine

/-- With nothing listed in the shadow, every byte reads as the configured `SHADOW_RESET`. -/
theorem shRead_of_sh_nil {s : State} (h : s.sh = []) (o : Nat) : shRead s o = s.cfg.shadowReset := by
  simp only [shRead, h, memRead_nil, unlisted_eq]

/-- The reference value of `SHADOW_RESET` (R7). -/
@[simp] theorem referenceConfig_shadowReset : referenceConfig.shadowReset = 0x00 := rfl

/-- Settles O49: the idle registers and the empty bus history are fields of the reset state, whose shadow lists no
byte, so every byte reads `SHADOW_RESET`. -/
theorem resetValues : Obligations.ResetValues := by
  unfold Obligations.ResetValues
  have hread : ∀ o, o < State.reset.cfg.shadowSize → shRead State.reset o = State.reset.cfg.shadowReset :=
    fun o _ => shRead_of_sh_nil reset_sh o
  have hvalue : State.reset.cfg.shadowReset = 0x00 := by rw [reset_cfg, referenceConfig_shadowReset]
  exact ⟨reset_mpa, hread, hvalue, reset_bus⟩

end Sys2Proof.Machine
end

section
/-! The word of a result (R65). -/

namespace Sys2Proof.Machine

/-- R65: the valid bit stands at bit 20, above the 20 bits of the payload, so it adds `2 ^ 20` to them. -/
theorem toNat_valid_append (p : BitVec 20) : (1#1 ++ p).toNat = 0x100000 + p.toNat := by
  rw [BitVec.toNat_append, ← Nat.shiftLeft_add_eq_or_of_lt p.isLt]
  rfl

/-- R65: zero-extension to 20 bits keeps the value of every payload that fits. -/
theorem toNat_valid_append_setWidth {w : Nat} (hw : w ≤ 20) (p : BitVec w) :
    (1#1 ++ p.setWidth 20).toNat = 0x100000 + p.toNat := by
  rw [toNat_valid_append, BitVec.toNat_setWidth_of_le hw]

/-- Settles O19: an event's word fills the 20 payload bits, and the narrower payloads are zero-extended to them. -/
theorem resultWordLayout : Obligations.ResultWordLayout := by
  unfold Obligations.ResultWordLayout
  exact ⟨rfl, fun e => toNat_valid_append (eventWord e), toNat_valid_append_setWidth (by decide),
    toNat_valid_append_setWidth (by decide), toNat_valid_append_setWidth (by decide),
    toNat_valid_append_setWidth (by decide)⟩

end Sys2Proof.Machine
end

section
/-! FEED on the whole state, case by case (R83 to R88). -/

namespace Sys2Proof.Machine

variable {s : State} {b : Byte}

/-- FEED writes the registers and the result, and nothing else (R80). -/
theorem feedByte_of_feedMpa {m : Mpa} {r : Result} (h : feedMpa s.cfg b s.mpa = (m, r)) :
    feedByte b s = { s with mpa := m, result := r } := by
  simp only [feedByte, answer, h]

/-- R83: an enabled status byte begins a three-byte packet, whatever was in progress. -/
theorem feedByte_enabled (hw : s.cfg.wf = true) (hb : isStatus b = true) (he : commandNibble b ∈ s.cfg.en) :
    feedByte b s = { s with mpa := ⟨.awaitData, b, 3, 1, 0⟩, result := .none } := by
  rw [feedByte_of_feedMpa (feedMpa_enabled hb he), beginPacket, packetLength_of_mem_en hw he]

/-- R84: a status byte that is not enabled leaves the assembler idle. -/
theorem feedByte_disabled (hb : isStatus b = true) (he : commandNibble b ∉ s.cfg.en) :
    feedByte b s = { s with mpa := Mpa.idle, result := .none } :=
  feedByte_of_feedMpa (feedMpa_disabled hb he)

/-- R86: a data byte in `AwaitStatus` touches no register. -/
theorem feedByte_stray (hb : isStatus b = false) (hs : s.mpa.st = .awaitStatus) :
    feedByte b s = { s with result := .none } :=
  feedByte_of_feedMpa (feedMpa_stray hb hs)

/-- R87: a data byte of a packet still short is kept. -/
theorem feedByte_short (hb : isStatus b = false) (hs : s.mpa.st = .awaitData)
    (hc : s.mpa.cnt.toNat + 1 < s.mpa.need.toNat) :
    feedByte b s = { s with mpa := { s.mpa with d1 := dataValue b, cnt := s.mpa.cnt + 1 }, result := .none } :=
  feedByte_of_feedMpa (feedMpa_short hb hs hc)

/-- R88: a data byte that is not short of the length completes the packet. -/
theorem feedByte_last (hb : isStatus b = false) (hs : s.mpa.st = .awaitData)
    (hc : ¬s.mpa.cnt.toNat + 1 < s.mpa.need.toNat) :
    feedByte b s = { s with mpa := Mpa.idle, result := .event (eventOf s.mpa.status s.mpa.d1 b) } :=
  feedByte_of_feedMpa (feedMpa_last hb hs hc)

/-- R89: of a three-byte packet, the data byte after the status byte is kept as `d1`. -/
theorem feedByte_second_of_three (hb : isStatus b = false) (hs : s.mpa.st = .awaitData) (hn : s.mpa.need = 3)
    (hc : s.mpa.cnt = 1) :
    feedByte b s = { s with mpa := ⟨.awaitData, s.mpa.status, 3, 2, dataValue b⟩, result := .none } := by
  have hshort : s.mpa.cnt.toNat + 1 < s.mpa.need.toNat := by rw [hc, hn]; decide
  have hcount : s.mpa.cnt + 1 = 2 := by rw [hc]; rfl
  simp only [feedByte_short hb hs hshort, hs, hn, hcount]

/-- R89: of a three-byte packet, the data byte after `d1` completes it. -/
theorem feedByte_third_of_three (hb : isStatus b = false) (hs : s.mpa.st = .awaitData) (hn : s.mpa.need = 3)
    (hc : s.mpa.cnt = 2) :
    feedByte b s = { s with mpa := Mpa.idle, result := .event (eventOf s.mpa.status s.mpa.d1 b) } := by
  have hlast : ¬s.mpa.cnt.toNat + 1 < s.mpa.need.toNat := by rw [hc, hn]; decide
  exact feedByte_last hb hs hlast

/-- R85: what a status byte leaves does not depend on the registers before it. -/
theorem feedByte_status_forgets (hb : isStatus b = true) (m : Mpa) : feedByte b { s with mpa := m } = feedByte b s := by
  simp only [feedByte, feedMpa, hb, if_true, answer]

/-- The event of a packet by its parts (R55, R88): the kind is the command nibble's, the rest is the packet's own. -/
theorem eventOf_statusByte (c n : Nibble) (k v : BitVec 7) :
    eventOf (statusByte c n) k (dataByte v) = ⟨c.extractLsb' 0 2, n, k, v⟩ := by
  rw [eventOf, kind_of_commandNibble, commandNibble_statusByte, channelNibble_statusByte, dataValue_dataByte]

end Sys2Proof.Machine
end

section
/-! The operations that feed a byte: FEED itself and the MIDI rows (R82, R90 to R94). -/

namespace Sys2Proof.Machine

/-- The operation is the FEED of this byte. -/
def IsFeedOf (i : Instr) (b : Byte) : Prop := ∀ s, exec i s = admitted s (feedByte b s)

theorem isFeedOf_feed (b : Byte) : IsFeedOf (.feed b) b := fun _ => rfl

theorem isFeedOf_data (d : BitVec 7) : IsFeedOf (.data d) (dataByte d) := fun _ => rfl

theorem isFeedOf_noteOff (n : Nibble) : IsFeedOf (.noteOff n) (statusByte 0x8 n) := fun _ => rfl

theorem isFeedOf_noteOn (n : Nibble) : IsFeedOf (.noteOn n) (statusByte 0x9 n) := fun _ => rfl

theorem isFeedOf_polyPressure (n : Nibble) : IsFeedOf (.polyPressure n) (statusByte 0xA n) := fun _ => rfl

theorem isFeedOf_controlChange (n : Nibble) : IsFeedOf (.controlChange n) (statusByte 0xB n) := fun _ => rfl

theorem isFeedOf_programChange (n : Nibble) : IsFeedOf (.programChange n) (statusByte 0xC n) := fun _ => rfl

theorem isFeedOf_channelPressure (n : Nibble) : IsFeedOf (.channelPressure n) (statusByte 0xD n) := fun _ => rfl

theorem isFeedOf_pitchBend (n : Nibble) : IsFeedOf (.pitchBend n) (statusByte 0xE n) := fun _ => rfl

theorem isFeedOf_system (n : Nibble) : IsFeedOf (.system n) (statusByte 0xF n) := fun _ => rfl

variable {s : State} {i j : Instr} {b d : Byte}

theorem IsFeedOf.exec_eq (hi : IsFeedOf i b) (hw : s.cfg.wf = true) : exec i s = .next (feedByte b s) := by
  rw [hi s, admitted_of_wf hw]

theorem IsFeedOf.runOps_cons (hi : IsFeedOf i b) (hw : s.cfg.wf = true) (is : List Instr) :
    runOps (i :: is) s = runOps is (feedByte b s) := by
  simp only [runOps, hi.exec_eq hw]

/-- R84, R93: a status byte that is not enabled is discarded with any packet in progress, and a data byte after it is
dropped. -/
theorem disabled_discarded (hi : IsFeedOf i b) (hj : IsFeedOf j d) (hw : s.cfg.wf = true) (hb : isStatus b = true)
    (he : commandNibble b ∉ s.cfg.en) (hd : isStatus d = false) :
    exec i s = .next { s with mpa := Mpa.idle, result := .none } ∧
      runOps [i, j] s = .next { s with mpa := Mpa.idle, result := .none } := by
  refine ⟨by rw [hi.exec_eq hw, feedByte_disabled hb he], ?_⟩
  rw [hi.runOps_cons hw, hj.runOps_cons (s := feedByte b s) hw, feedByte_disabled hb he, feedByte_stray hd rfl]
  rfl

variable {c n : Nibble}

/-- R90 to R93: the row of a command that is not enabled is discarded, and so is a data byte after it. -/
theorem command_discarded (hi : IsFeedOf i (statusByte c n)) (hw : s.cfg.wf = true) (hc : 8 ≤ c.toNat)
    (he : c ∉ s.cfg.en) (d : BitVec 7) :
    exec i s = .next { s with mpa := Mpa.idle, result := .none } ∧
      runOps [i, .data d] s = .next { s with mpa := Mpa.idle, result := .none } :=
  disabled_discarded hi (isFeedOf_data d) hw (by simp [isStatus_statusByte, hc]) (by simpa using he)
    (isStatus_dataByte d)

/-- R93: a command that no admitted `EN` holds is discarded, and so is a data byte after it. -/
theorem never_enabled_discarded (hi : IsFeedOf i (statusByte c n)) (hw : s.cfg.wf = true) (hc : 8 ≤ c.toNat)
    (hne : ¬(c = 0x8 ∨ c = 0x9 ∨ c = 0xB)) (d : BitVec 7) :
    exec i s = .next { s with mpa := Mpa.idle, result := .none } ∧
      runOps [i, .data d] s = .next { s with mpa := Mpa.idle, result := .none } :=
  command_discarded hi hw hc (fun he => hne (mem_en_cases hw he)) d

/-- R51, D5: the nibble of an enabled command is one of a status byte. -/
theorem le_of_mem_en {cfg : Config} (hw : cfg.wf = true) (he : c ∈ cfg.en) : 8 ≤ c.toNat := by
  rcases mem_en_cases hw he with rfl | rfl | rfl <;> decide

/-- R90 to R92: the row of an enabled command begins a three-byte packet, and two data bytes complete it with the
command's event. -/
theorem command_assembles (hi : IsFeedOf i (statusByte c n)) (hw : s.cfg.wf = true) (he : c ∈ s.cfg.en)
    (k v : BitVec 7) :
    exec i s = .next { s with mpa := ⟨.awaitData, statusByte c n, 3, 1, 0⟩, result := .none } ∧
      runOps [i, .data k, .data v] s =
        .next { s with mpa := Mpa.idle, result := .event ⟨c.extractLsb' 0 2, n, k, v⟩ } := by
  have hb : isStatus (statusByte c n) = true := by simpa [isStatus_statusByte] using le_of_mem_en hw he
  have hbegin : feedByte (statusByte c n) s =
      { s with mpa := ⟨.awaitData, statusByte c n, 3, 1, 0⟩, result := .none } :=
    feedByte_enabled hw hb (by simpa using he)
  refine ⟨by rw [hi.exec_eq hw, hbegin], ?_⟩
  have hrun : runOps [i, .data k, .data v] s =
      .next (feedByte (dataByte v) (feedByte (dataByte k) (feedByte (statusByte c n) s))) := by
    rw [hi.runOps_cons hw, (isFeedOf_data k).runOps_cons (s := feedByte _ s) hw,
      (isFeedOf_data v).runOps_cons (s := feedByte _ (feedByte _ s)) hw, runOps]
  rw [hrun, hbegin, feedByte_second_of_three (isStatus_dataByte k) rfl rfl rfl,
    feedByte_third_of_three (isStatus_dataByte v) rfl rfl rfl, eventOf_statusByte, dataValue_dataByte]

end Sys2Proof.Machine
end

section
/-! The packet assembler's statements (R81 to R94). -/

namespace Sys2Proof.Machine

/-- Settles O11: the registers of R13 are idle or of a three-byte packet with one or two bytes, and each row of the
table is one case of FEED. -/
theorem transitionTable : Obligations.TransitionTable := by
  unfold Obligations.TransitionTable
  intro s b hw hl
  have hfeed : exec (.feed b) s = .next (feedByte b s) := (isFeedOf_feed b).exec_eq hw
  rw [hfeed]
  refine ⟨?_, fun hb he => ?_, fun hb he => ?_, fun hb hs => ?_, fun hb hs hc => ?_, fun hb hs hc => ?_, ?_⟩
  · cases hs : s.mpa.st with
    | awaitStatus => exact .inl (legal_idle hl hs)
    | awaitData =>
      obtain ⟨-, h1 | h2⟩ := legal_awaitData hw hl hs
      · exact .inr (.inl ⟨rfl, h1⟩)
      · exact .inr (.inr ⟨rfl, h2⟩)
  · rw [feedByte_enabled hw hb he]
  · rw [feedByte_disabled hb he, Mpa.idle]
  · rw [feedByte_stray hb hs, legal_idle hl hs, Mpa.idle]
  · rw [feedByte_second_of_three hb hs (legal_awaitData hw hl hs).1 hc, dataValue]
  · rw [feedByte_third_of_three hb hs (legal_awaitData hw hl hs).1 hc, Mpa.idle]
  · exact exec_of_wf rfl hw

/-- Settles O12: each of the three rows is the FEED of its command's status byte. -/
theorem enabledCommandsAssemble : Obligations.EnabledCommandsAssemble := by
  unfold Obligations.EnabledCommandsAssemble
  intro s n k v hw
  exact ⟨fun he => command_assembles (isFeedOf_noteOff n) hw he k v,
    fun he => (command_discarded (isFeedOf_noteOff n) hw (by decide) he k).1,
    fun he => command_assembles (isFeedOf_noteOn n) hw he k v,
    fun he => (command_discarded (isFeedOf_noteOn n) hw (by decide) he k).1,
    fun he => command_assembles (isFeedOf_controlChange n) hw he k v,
    fun he => (command_discarded (isFeedOf_controlChange n) hw (by decide) he k).1⟩

/-- Settles O13: each of the five rows is the FEED of a status byte whose command no admitted `EN` holds. -/
theorem neverEnabledCommandsDiscarded : Obligations.NeverEnabledCommandsDiscarded := by
  unfold Obligations.NeverEnabledCommandsDiscarded
  intro s n d hw
  simp only [List.mem_cons, List.not_mem_nil, or_false, forall_eq_or_imp, forall_eq]
  exact ⟨never_enabled_discarded (isFeedOf_polyPressure n) hw (by decide) (by decide) d,
    never_enabled_discarded (isFeedOf_programChange n) hw (by decide) (by decide) d,
    never_enabled_discarded (isFeedOf_channelPressure n) hw (by decide) (by decide) d,
    never_enabled_discarded (isFeedOf_pitchBend n) hw (by decide) (by decide) d,
    never_enabled_discarded (isFeedOf_system n) hw (by decide) (by decide) d⟩

/-- Settles O4: the abort is the operation's whole effect. -/
theorem feedFailAbortsPacket : Obligations.FeedFailAbortsPacket := by
  unfold Obligations.FeedFailAbortsPacket
  refine ⟨fun w h => ?_, fun s hw => exec_of_wf rfl hw⟩
  rw [decodeCommand, h]
  rfl

/-- Settles O5: the length is that of every command an admitted `EN` holds. -/
theorem enabledStatusByteBeginsPacket : Obligations.EnabledStatusByteBeginsPacket := by
  unfold Obligations.EnabledStatusByteBeginsPacket
  intro s b hw hb he
  have hlen : packetLength (commandNibble b) = 3 := packetLength_of_mem_en hw he
  exact ⟨hlen, by rw [(isFeedOf_feed b).exec_eq hw, feedByte_enabled hw hb he, hlen]⟩

/-- Settles O6: the second byte finds the assembler idle. -/
theorem disabledStatusByteDiscarded : Obligations.DisabledStatusByteDiscarded := by
  unfold Obligations.DisabledStatusByteDiscarded
  intro s b d hw hb he hd
  exact disabled_discarded (isFeedOf_feed b) (isFeedOf_feed d) hw hb he hd

/-- Settles O7: FEED of a status byte does not read the registers it overwrites. -/
theorem statusByteForgetsThePacket : Obligations.StatusByteForgetsThePacket := by
  unfold Obligations.StatusByteForgetsThePacket
  intro s m b hw hb
  have hother : exec (.feed b) { s with mpa := m } = .next (feedByte b s) := by
    rw [(isFeedOf_feed b).exec_eq (s := { s with mpa := m }) hw, feedByte_status_forgets hb m]
  refine ⟨feedByte b s, (isFeedOf_feed b).exec_eq hw, hother, ?_, fun he => ?_, fun he => ?_⟩
  · by_cases he : commandNibble b ∈ s.cfg.en
    · rw [feedByte_enabled hw hb he]
    · rw [feedByte_disabled hb he]
  · rw [feedByte_enabled hw hb he]
    exact ⟨rfl, rfl⟩
  · rw [feedByte_disabled hb he]
    rfl

/-- Settles O8: the stray data byte of R86. -/
theorem strayDataByteDropped : Obligations.StrayDataByteDropped := by
  unfold Obligations.StrayDataByteDropped
  intro s b hw hb hs
  rw [(isFeedOf_feed b).exec_eq hw, feedByte_stray hb hs]

/-- Settles O9: the short packet of R87. -/
theorem firstDataByteKept : Obligations.FirstDataByteKept := by
  unfold Obligations.FirstDataByteKept
  intro s b hw hb hs hc
  rw [(isFeedOf_feed b).exec_eq hw, feedByte_short hb hs hc, dataValue]

/-- Settles O10: the event's kind is the low half of the status byte's command nibble. -/
theorem lastDataByteEmitsEvent : Obligations.LastDataByteEmitsEvent := by
  unfold Obligations.LastDataByteEmitsEvent
  intro s b hw hb hs hc
  have hkind : (eventOf s.mpa.status s.mpa.d1 b).kind = (commandNibble s.mpa.status).extractLsb' 0 2 :=
    kind_of_commandNibble _
  refine ⟨eventOf s.mpa.status s.mpa.d1 b, ?_, fun h => ?_, fun h => ?_, fun h => ?_, rfl, rfl, rfl⟩
  · rw [(isFeedOf_feed b).exec_eq hw, feedByte_last hb hs (by omega), Mpa.idle]
  · rw [hkind, h]; rfl
  · rw [hkind, h]; rfl
  · rw [hkind, h]; rfl

/-- Settles O14: the three cases of a data byte, at the DATA row. -/
theorem dataByteByState : Obligations.DataByteByState := by
  unfold Obligations.DataByteByState
  intro s d hw
  have hb : isStatus (dataByte d) = false := isStatus_dataByte d
  rw [(isFeedOf_data d).exec_eq hw]
  refine ⟨fun hs => ?_, fun hs hc => ?_, fun hs hc => ?_⟩
  · rw [feedByte_stray hb hs]
  · rw [feedByte_short hb hs hc, dataValue_dataByte]
  · rw [feedByte_last hb hs (by omega), eventOf, dataValue_dataByte, channelNibble, Mpa.idle]

end Sys2Proof.Machine
end

section
/-! The frequency encoder's operations and the parts of their codes (R100, R104, R106, R111). -/

namespace Sys2Proof.Machine

variable {s : State} {c d : Config}

/-- R104: ENC_FM writes the result and nothing else. -/
theorem exec_encFm (hw : s.cfg.wf = true) (key : Key) :
    exec (.encFm key) s = .next { s with result := .fmCode (fmCodeOf s.cfg key) } :=
  exec_of_wf rfl hw

/-- R106: ENC_PSG writes the result and nothing else. -/
theorem exec_encPsg (hw : s.cfg.wf = true) (key : Key) :
    exec (.encPsg key) s = .next { s with result := .psgPeriod (psgPeriodOf s.cfg key) } :=
  exec_of_wf rfl hw

/-- R111: ENC_NOISE writes the result and nothing else. -/
theorem exec_encNoise (hw : s.cfg.wf = true) (key : Key) :
    exec (.encNoise key) s = .next { s with result := .noiseCode (noiseCodeOf s.cfg key) } :=
  exec_of_wf rfl hw

/-- The block stands above the eleven bits of the mantissa (R57). -/
theorem fmCodeOf_div (hw : c.wf = true) (key : Key) : (fmCodeOf c key).toNat / 2048 = blockOf c key := by
  rw [fmCodeOf_toNat hw, Nat.mul_add_div (by decide), Nat.div_eq_of_lt (mantissaOf_lt hw key), Nat.add_zero]

/-- The mantissa is the low eleven bits of the code (R57). -/
theorem fmCodeOf_mod (hw : c.wf = true) (key : Key) : (fmCodeOf c key).toNat % 2048 = mantissaOf c key := by
  rw [fmCodeOf_toNat hw, Nat.mul_add_mod, Nat.mod_eq_of_lt (mantissaOf_lt hw key)]

/-- R57: bits 13:11 of the code are the block. -/
theorem fmCodeOf_extract_block (hw : c.wf = true) (key : Key) :
    ((fmCodeOf c key).extractLsb' 11 3).toNat = blockOf c key := by
  rw [BitVec.extractLsb'_toNat, Nat.shiftRight_eq_div_pow]
  exact (congrArg (· % 8) (fmCodeOf_div hw key)).trans (Nat.mod_eq_of_lt (blockOf_lt hw key))

/-- R57: bits 10:0 of the code are the mantissa. -/
theorem fmCodeOf_extract_mantissa (hw : c.wf = true) (key : Key) :
    ((fmCodeOf c key).extractLsb' 0 11).toNat = mantissaOf c key := by
  rw [BitVec.extractLsb'_toNat, Nat.shiftRight_zero]
  exact fmCodeOf_mod hw key

/-- The mantissa depends on the key's pitch class alone (R102, R104). -/
theorem mantissaOf_of_pitchClass {key key' : Key} (h : pitchClass key = pitchClass key') (c : Config) :
    mantissaOf c key = mantissaOf c key' := by
  simp only [mantissaOf, pitchEntry, h]

/-- The noise code depends on the key's pitch class alone (R111). -/
theorem noiseCodeOf_of_pitchClass {key key' : Key} (h : pitchClass key = pitchClass key') (c : Config) :
    noiseCodeOf c key = noiseCodeOf c key' := by
  simp only [noiseCodeOf, h]

theorem octave_of_add_twelve {key up : Key} (h : up.toNat = key.toNat + 12) : octave up = octave key + 1 := by
  rw [octave, octave, h, Nat.add_div_right _ (by decide)]

theorem pitchClass_of_add_twelve {key up : Key} (h : up.toNat = key.toNat + 12) : pitchClass up = pitchClass key := by
  rw [pitchClass, pitchClass, h, Nat.add_mod_right]

/-- A sum at or below 0 is clamped to block 0 (R104). -/
theorem blockOf_of_nonpos {key : Key} (h : (octave key : Int) + c.octaveOffset ≤ 0) : blockOf c key = 0 := by
  rw [blockOf, clamp]
  split_ifs <;> omega

/-- A sum at or above `MAX_BLOCK` is clamped to it (R104). -/
theorem blockOf_of_max_le {key : Key} (h : (c.maxBlock : Int) ≤ octave key + c.octaveOffset) :
    blockOf c key = c.maxBlock := by
  rw [blockOf, clamp]
  split_ifs <;> omega

/-- A sum within the bounds is the block itself (R104). -/
theorem blockOf_of_mem_bounds {key : Key} (h0 : 0 ≤ (octave key : Int) + c.octaveOffset)
    (h1 : (octave key : Int) + c.octaveOffset ≤ c.maxBlock) : (blockOf c key : Int) = octave key + c.octaveOffset := by
  rw [blockOf, clamp]
  split_ifs <;> omega

/-- R106: the shifts of the numerator as a product and a truncating quotient by a power of two. -/
theorem psgNumerator_eq (c : Config) (key : Key) :
    psgNumerator c key = if octave key ≤ c.psgRefOct then c.psgNum * 2 ^ (c.psgRefOct - octave key)
      else c.psgNum / 2 ^ (octave key - c.psgRefOct) := by
  rw [psgNumerator, Nat.shiftLeft_eq, Nat.shiftRight_eq_div_pow]

/-- R103 condition 5: the bound of the halving loop is the largest 10-bit period. -/
theorem psgMax_eq (hw : c.wf = true) : c.psgMax = 1023 := by
  have hpsg := (wf_conditions hw).psg
  simp only [psgConstantsOk, Bool.and_eq_true, beq_iff_eq] at hpsg
  exact hpsg.2

/-- R106: the period is the raw one, halved as often as it takes to fit ten bits and no more. -/
theorem psgPeriodOf_spec (hw : c.wf = true) (key : Key) :
    ∃ j, (psgPeriodOf c key).toNat = rawPeriod c key / 2 ^ j ∧ ∀ i, i < j → 1023 < rawPeriod c key / 2 ^ i := by
  obtain ⟨j, hval, hle, hleast⟩ := halveTo_spec c.psgMax (Nat.le_refl (rawPeriod c key))
  rw [psgMax_eq hw] at hle hleast
  refine ⟨j, ?_, hleast⟩
  rw [psgPeriodOf, BitVec.toNat_ofNat, hval, Nat.mod_eq_of_lt (by omega)]

/-- R111: a table entry that is given is the key's noise code. -/
theorem noiseCodeOf_of_entry {key : Key} {e : NoiseEntry} (h : c.noise[pitchClass key]? = some (some e)) :
    noiseCodeOf c key = noiseEntryCode e := by
  simp only [noiseCodeOf, List.getD_eq_getElem?_getD, h, Option.getD_some]

/-- R59: the feedback mode is bit 2 of the noise code. -/
theorem noiseEntryCode_extract_fb (e : NoiseEntry) : (noiseEntryCode e).extractLsb' 2 1 = feedbackCode e.fb :=
  BitVec.extractLsb'_append_eq_left

/-- R59: the shift rate is bits 1:0 of the noise code. -/
theorem noiseEntryCode_extract_rate (e : NoiseEntry) : (noiseEntryCode e).extractLsb' 0 2 = rateCode e.rate :=
  BitVec.extractLsb'_append_eq_right

/-- The FM code reads the key and four constants (R100). -/
theorem fmCodeOf_congr (ht : c.table = d.table) (ho : c.octaveOffset = d.octaveOffset) (hm : c.maxBlock = d.maxBlock)
    (hr : c.refDivisor = d.refDivisor) (key : Key) : fmCodeOf c key = fmCodeOf d key := by
  simp only [fmCodeOf, blockOf, mantissaOf, pitchEntry, ht, ho, hm, hr]

/-- The tone-chip period reads the key and four constants (R100). -/
theorem psgPeriodOf_congr (ht : c.table = d.table) (hn : c.psgNum = d.psgNum) (ho : c.psgRefOct = d.psgRefOct)
    (hm : c.psgMax = d.psgMax) (key : Key) : psgPeriodOf c key = psgPeriodOf d key := by
  simp only [psgPeriodOf, rawPeriod, psgNumerator, pitchEntry, ht, hn, ho, hm]

/-- The noise code reads the key and the noise table (R100). -/
theorem noiseCodeOf_congr (hn : c.noise = d.noise) (key : Key) : noiseCodeOf c key = noiseCodeOf d key := by
  simp only [noiseCodeOf, hn]

end Sys2Proof.Machine
end

section
/-! The frequency encoder's statements (R100 to R111). -/

namespace Sys2Proof.Machine

/-- Settles O20: the code's two fields are the block, a signed clamp, and the mantissa, each in its own bits. -/
theorem encFmCode : Obligations.EncFmCode := by
  unfold Obligations.EncFmCode
  refine ⟨fun w h => ?_, fun s key hw => ⟨fmCodeOf s.cfg key, exec_encFm hw key, ?_, ?_⟩⟩
  · rw [decodeCommand, h]
    rfl
  · rw [fmCodeOf_extract_block hw, blockOf_cast]
  · rw [fmCodeOf_extract_mantissa hw, mantissaOf, pitchEntry, pitchClass]

/-- Settles O21: twelve keys up is one octave more and the same pitch class; the three clauses are the three ranges of
the clamp. -/
theorem octaveApartKeys : Obligations.OctaveApartKeys := by
  unfold Obligations.OctaveApartKeys
  refine ⟨by decide, by decide, fun s key up hw hup => ?_⟩
  have hoct : octave up = octave key + 1 := octave_of_add_twelve hup
  have hmantissa : mantissaOf s.cfg key = mantissaOf s.cfg up :=
    mantissaOf_of_pitchClass (pitchClass_of_add_twelve hup).symm s.cfg
  refine ⟨fmCodeOf s.cfg key, fmCodeOf s.cfg up, exec_encFm hw key, exec_encFm hw up, ?_⟩
  rw [fmCodeOf_mod hw, fmCodeOf_mod hw, fmCodeOf_div hw, fmCodeOf_div hw, ← octave, ← octave]
  refine ⟨hmantissa, fun h0 h1 => ?_, fun h => ?_, fun h => ?_⟩
  · have hlow := blockOf_of_mem_bounds h0 h1.le
    have hhigh := blockOf_of_mem_bounds (c := s.cfg) (key := up) (by omega) (by omega)
    omega
  · rw [blockOf_of_nonpos h, blockOf_of_nonpos (by omega)]
  · rw [blockOf_of_max_le h, blockOf_of_max_le (by omega)]

/-- Settles O22: the raw period is the rounded quotient, and the halving loop ends by its bound, never by its fuel. -/
theorem encPsgPeriod : Obligations.EncPsgPeriod := by
  unfold Obligations.EncPsgPeriod
  refine ⟨fun w h => ?_, fun s key entry num p hw hentry hnum hp => ?_⟩
  · rw [decodeCommand, h]
    rfl
  · have hraw : rawPeriod s.cfg key = p := by
      rw [hp, hnum, hentry, rawPeriod, psgNumerator_eq, pitchEntry, octave, pitchClass]
    obtain ⟨j, hval, hleast⟩ := psgPeriodOf_spec hw key
    rw [hraw] at hval hleast
    exact ⟨j, psgPeriodOf s.cfg key, exec_encPsg hw key, hval, hleast⟩

/-- Settles O23: the code looks at the key's pitch class only. -/
theorem encNoiseCode : Obligations.EncNoiseCode := by
  unfold Obligations.EncNoiseCode
  refine ⟨fun w h => ?_, fun s key hw => ⟨noiseCodeOf s.cfg key, exec_encNoise hw key, fun e he => ?_,
    fun key' hclass => ?_⟩⟩
  · rw [decodeCommand, h]
    rfl
  · rw [noiseCodeOf_of_entry he]
    exact ⟨noiseEntryCode_extract_fb e, noiseEntryCode_extract_rate e⟩
  · rw [exec_encNoise hw, noiseCodeOf_of_pitchClass hclass]

/-- Settles O25: each of the three codes is a function of the key and the constants it reads. -/
theorem frequencyOpsArePure : Obligations.FrequencyOpsArePure := by
  unfold Obligations.FrequencyOpsArePure
  intro s u key hs hu htable hnoise hoffset hblock hdivisor hnum hrefOct hmax
  simp only [List.mem_cons, List.not_mem_nil, or_false, forall_eq_or_imp, forall_eq]
  refine ⟨⟨_, exec_encFm hs key, ?_⟩, ⟨_, exec_encPsg hs key, ?_⟩, ⟨_, exec_encNoise hs key, ?_⟩⟩
  · rw [exec_encFm hu, fmCodeOf_congr htable hoffset hblock hdivisor]
  · rw [exec_encPsg hu, psgPeriodOf_congr htable hnum hrefOct hmax]
  · rw [exec_encNoise hu, noiseCodeOf_congr hnoise]

end Sys2Proof.Machine
end

section
/-! Resolution (R123, R133) and the shadow-register controller's operations where they are accepted and where they
are rejected. -/

namespace Sys2Proof.Machine

variable {c : Config} {s : State}

/-- R123: a field index beyond the table is rejected. -/
theorem resolve_of_nFields_le {f : Nat} (h : c.nFields ≤ f) (ch slot : Nat) : resolve c ch slot f = none := by
  rw [resolve, List.getElem?_eq_none h]

/-- R123: a Global field resolves to its base, whatever the channel. -/
theorem resolve_global (hw : c.wf = true) {f : Nat} {d : FieldDescriptor} (hd : c.fields[f]? = some d)
    (hg : d.scope = .global) (ch : Nat) {slot : Nat} (hs : slot < 4) : resolve c ch slot f = some d.base := by
  rw [resolve_of_wf hw hd hs, if_neg (fun h => h.1 hg), hg, registerOffset]

/-- R123: a field that is not Global is rejected on a channel at or beyond `N_CH`. -/
theorem resolve_of_nCh_le (hw : c.wf = true) {f : Nat} {d : FieldDescriptor} (hd : c.fields[f]? = some d)
    (hg : d.scope ≠ .global) {ch slot : Nat} (hc : c.nCh ≤ ch) (hs : slot < 4) : resolve c ch slot f = none := by
  rw [resolve_of_wf hw hd hs, if_pos ⟨hg, hc⟩]

/-- R123: every field resolves, by its scope's closed form, on a channel in range. -/
theorem resolve_of_lt_nCh (hw : c.wf = true) {f : Nat} {d : FieldDescriptor} (hd : c.fields[f]? = some d)
    {ch slot : Nat} (hc : ch < c.nCh) (hs : slot < 4) :
    resolve c ch slot f = some (registerOffset c d.base d.scope ch slot) := by
  rw [resolve_of_wf hw hd hs, if_neg (fun h => absurd hc (Nat.not_lt.2 h.2))]

/-- Whether two slots name one register of a channel does not depend on the channel. -/
theorem usedOperands_eq_of_eq {sc : Scope} {ch k k' : Nat} (h : usedOperands sc ch k = usedOperands sc ch k')
    (ch' : Nat) : usedOperands sc ch' k = usedOperands sc ch' k' := by
  cases sc with
  | global => rfl
  | channel => rfl
  | slot => rw [show k = k' from (Prod.mk.inj h).2]

/-- R121 condition 3: operands that name one register of a channel name one register of every channel in range. -/
theorem resolve_eq_of_resolve_eq (hw : c.wf = true) {f g k k' src dst o : Nat} {d e : FieldDescriptor}
    (hd : c.fields[f]? = some d) (he : c.fields[g]? = some e) (hk : k < 4) (hk' : k' < 4) (hsrc : src < c.nCh)
    (hdst : dst < c.nCh) (h : resolve c dst k f = some o) (h' : resolve c dst k' g = some o) :
    resolve c src k f = resolve c src k' g := by
  rw [resolve_of_lt_nCh hw hd hdst hk] at h
  rw [resolve_of_lt_nCh hw he hdst hk'] at h'
  obtain ⟨hb, hsc, hu⟩ := registerOffset_inj hw hd he (.inr hdst) (.inr hdst) hk hk'
    (Option.some.inj (h.trans h'.symm))
  rw [hsc] at hu
  rw [resolve_of_lt_nCh hw hd hsrc hk, resolve_of_lt_nCh hw he hsrc hk', hb, hsc,
    ← registerOffset_usedOperands c e.base e.scope src k, usedOperands_eq_of_eq hu src, registerOffset_usedOperands]

theorem exec_setField (hw : s.cfg.wf = true) (ch : Nibble) (slot : SlotIndex) (field : FieldIndex) (value : Byte) :
    exec (.setField ch slot field value) s =
      .next (answer .none (writeField ch.toNat slot.toNat field.toNat value s)) :=
  exec_of_wf rfl hw

theorem exec_getField (hw : s.cfg.wf = true) (ch : Nibble) (slot : SlotIndex) (field : FieldIndex) :
    exec (.getField ch slot field) s = .next (answer (readField ch.toNat slot.toNat field.toNat s) s) :=
  exec_of_wf rfl hw

theorem exec_initVoice (hw : s.cfg.wf = true) (ch : Nibble) :
    exec (.initVoice ch) s = .next (answer .none (initVoice ch.toNat s)) :=
  exec_of_wf rfl hw

theorem exec_mirror (hw : s.cfg.wf = true) (src dst : Nibble) :
    exec (.mirror src dst) s = .next (answer .none (mirrorVoice src.toNat dst.toNat s)) :=
  exec_of_wf rfl hw

/-- R128: INIT_VOICE beyond `N_CH` writes nothing. -/
theorem initVoice_of_reject {ch : Nat} (h : s.cfg.nCh ≤ ch) : initVoice ch s = s := by
  rw [initVoice, if_pos h]

/-- R128: INIT_VOICE on a channel in range is the default voice's field writes. -/
theorem initVoice_of_lt {ch : Nat} (h : ch < s.cfg.nCh) : initVoice ch s = writeVoice ch s.cfg.defaultVoice s := by
  rw [initVoice, if_neg (Nat.not_le.2 h)]

/-- R130: MIRROR from or to a channel beyond `N_CH` writes nothing. -/
theorem mirrorVoice_of_reject {src dst : Nat} (h : s.cfg.nCh ≤ src ∨ s.cfg.nCh ≤ dst) : mirrorVoice src dst s = s := by
  rw [mirrorVoice, if_pos h]

end Sys2Proof.Machine
end

section
/-! The two loops of the shadow-register controller: INIT_VOICE as a run of SETFIELDs (R128), MIRROR's copies (R130). -/

namespace Sys2Proof.Machine

variable {s : State}

/-- The elements of a list of default writes name fields and slots of the configuration (R121 condition 6). -/
def VoiceNamed (c : Config) (voice : List DefaultWrite) : Prop :=
  ∀ e ∈ voice, e.field < c.nFields ∧ e.slot < 4

/-- The default voice of a well-formed configuration names fields and slots. -/
theorem defaultVoice_named {c : Config} (hw : c.wf = true) : VoiceNamed c c.defaultVoice := by
  have h := (wf_conditions hw).voice
  simp only [defaultVoiceOk, List.all_eq_true, Bool.and_eq_true, decide_eq_true_eq] at h
  exact h

/-- The descriptor table is addressed by 6-bit operands (R121 condition 5). -/
theorem nFields_le {c : Config} (hw : c.wf = true) : c.nFields ≤ 64 := by
  have h := (wf_conditions hw).widths
  simp only [operandWidthsOk, Bool.and_eq_true, decide_eq_true_eq] at h
  exact h.1.1

/-- The SETFIELD of an element of a default voice (R128). -/
def voiceOp (ch : Nibble) (e : DefaultWrite) : Instr :=
  .setField ch (BitVec.ofNat 2 e.slot) (BitVec.ofNat 6 e.field) e.value

/-- An element's SETFIELD loses nothing of its slot and field, which fit their operands (R121 conditions 5 and 6). -/
theorem exec_voiceOp (hw : s.cfg.wf = true) (ch : Nibble) {e : DefaultWrite} (hf : e.field < s.cfg.nFields)
    (hk : e.slot < 4) :
    exec (voiceOp ch e) s = .next (answer .none (writeField ch.toNat e.slot e.field e.value s)) := by
  have hf64 : e.field < 2 ^ 6 := Nat.lt_of_lt_of_le hf (nFields_le hw)
  rw [voiceOp, exec_setField hw, BitVec.toNat_ofNat, BitVec.toNat_ofNat, Nat.mod_eq_of_lt (show e.slot < 2 ^ 2 from hk),
    Nat.mod_eq_of_lt hf64]

/-- R128: the SETFIELDs of a voice, run in order, are the voice's field writes. -/
theorem runOps_voiceOps (hw : s.cfg.wf = true) (ch : Nibble) (voice : List DefaultWrite)
    (hv : VoiceNamed s.cfg voice) :
    runOps (voice.map (voiceOp ch)) (answer .none s) = .next (answer .none (writeVoice ch.toNat voice s)) := by
  induction voice generalizing s with
  | nil => rfl
  | cons e voice ih =>
    obtain ⟨hf, hk⟩ := hv e List.mem_cons_self
    have hstep : exec (voiceOp ch e) (answer .none s) =
        .next (answer .none (writeField ch.toNat e.slot e.field e.value s)) := by
      rw [exec_voiceOp (s := answer .none s) hw ch hf hk, writeField_answer]
      rfl
    have hrest : VoiceNamed (writeField ch.toNat e.slot e.field e.value s).cfg voice := by
      rw [writeField_cfg]
      exact fun x hx => hv x (List.mem_cons_of_mem e hx)
    rw [List.map_cons, runOps, hstep]
    exact ih (by rwa [writeField_cfg]) hrest

/-- R128: one bus event per element of a voice, since none rejects on a channel in range. -/
theorem writeVoice_bus_length (hw : s.cfg.wf = true) {ch : Nat} (hc : ch < s.cfg.nCh) (voice : List DefaultWrite)
    (hv : VoiceNamed s.cfg voice) : (writeVoice ch voice s).bus.length = s.bus.length + voice.length := by
  induction voice generalizing s with
  | nil => rfl
  | cons e voice ih =>
    obtain ⟨hf, hk⟩ := hv e List.mem_cons_self
    have hd := List.getElem?_eq_getElem hf
    have hwrite := writeField_of_resolve (v := e.value) hd (resolve_of_lt_nCh hw hd hc hk)
    have hrest := ih (s := writeField ch e.slot e.field e.value s) (by rwa [writeField_cfg]) (by rwa [writeField_cfg])
      (by rw [writeField_cfg]; exact fun x hx => hv x (List.mem_cons_of_mem e hx))
    rw [hwrite, putByte_bus, List.length_append, List.length_singleton] at hrest
    rw [List.length_cons, ← Nat.add_assoc, Nat.add_right_comm, ← hrest, ← hwrite]
    rfl

/-- The destination's register offsets in the order MIRROR first comes to them (R130). -/
def mirrorOffsets (c : Config) (dst : Nat) : List Nat :=
  ((mirrorOperands c).filterMap fun fk => resolve c dst fk.2 fk.1).eraseDups

/-- Every register of the destination channel that is not Global is among those MIRROR copies (R130). -/
theorem mem_mirrorOffsets {c : Config} {f k dst o : Nat} {d : FieldDescriptor} (hd : c.fields[f]? = some d)
    (hg : d.scope ≠ .global) (hk : k < 4) (ho : resolve c dst k f = some o) : o ∈ mirrorOffsets c dst := by
  obtain ⟨k', hmem, hsame⟩ := mirrorOperands_complete hd hg hk
  rw [mirrorOffsets, List.mem_eraseDups, List.mem_filterMap]
  exact ⟨(f, k'), hmem, (hsame dst).trans ho⟩

/-- R130: an accepted MIRROR is its loop, which has done the destination's register offsets in order. -/
theorem mirrorVoice_mirrored (hw : s.cfg.wf = true) (hF : ShadowForm s) {src dst : Nat} (hs : src < s.cfg.nCh)
    (hd : dst < s.cfg.nCh) : Mirrored s src dst (mirrorVoice src dst s, (mirrorOffsets s.cfg dst).reverse) := by
  have hnamed := fun fk (h : fk ∈ mirrorOperands s.cfg) => mem_mirrorOperands (c := s.cfg) (f := fk.1) (k := fk.2) h
  have hstart : Mirrored s src dst (s, []) := ⟨rfl, hF, fun _ _ => rfl, nofun, (List.append_nil s.bus).symm⟩
  have hloop := mirrorFold_mirrored hw (mirrorOperands s.cfg) hnamed hstart
  have hdone := mirrorFold_done hw hs hd (mirrorOperands s.cfg) hnamed (acc := (s, [])) rfl
  rw [mirrorVoice, if_neg (by omega), mirrorOffsets, List.eraseDups, List.eraseDupsBy, ← hdone, List.reverse_reverse]
  exact hloop

/-- R130: each register byte of the destination holds what the source's held. -/
theorem shRead_mirrorVoice (hw : s.cfg.wf = true) (hF : ShadowForm s) {f k src dst os od : Nat} {d : FieldDescriptor}
    (hs : src < s.cfg.nCh) (hd : dst < s.cfg.nCh) (hf : s.cfg.fields[f]? = some d) (hg : d.scope ≠ .global)
    (hk : k < 4) (hos : resolve s.cfg src k f = some os) (hod : resolve s.cfg dst k f = some od) :
    shRead (mirrorVoice src dst s) od = shRead s os := by
  obtain ⟨g, k', os', e, he, -, hk', hos', hod', hread⟩ := (mirrorVoice_mirrored hw hF hs hd).copied od
    (List.mem_reverse.2 (mem_mirrorOffsets hf hg hk hod))
  have hsame : some os = some os' := by
    rw [← hos, ← hos', resolve_eq_of_resolve_eq hw hf he hk hk' hs hd hod hod']
  rw [Option.some.inj hsame]
  exact hread

/-- R130: a byte that is no register of the destination is left alone. -/
theorem shRead_mirrorVoice_of_ne (hw : s.cfg.wf = true) (hF : ShadowForm s) {src dst o : Nat} (hs : src < s.cfg.nCh)
    (hd : dst < s.cfg.nCh) (ho : ∀ f k d, s.cfg.fields[f]? = some d → d.scope ≠ .global → k < 4 →
      resolve s.cfg dst k f ≠ some o) : shRead (mirrorVoice src dst s) o = shRead s o := by
  have hm := mirrorVoice_mirrored hw hF hs hd
  refine hm.others o fun hmem => ?_
  obtain ⟨f, k, -, d, hf, hg, hk, -, hod, -⟩ := hm.copied o hmem
  exact ho f k d hf hg hk hod

end Sys2Proof.Machine
end

section
/-! A field kept by the operations that spare it (R127). -/

namespace Sys2Proof.Machine

variable {s : State} {f o ch slot : Nat} {d : FieldDescriptor}

/-- Every operation keeps the shadow's form. -/
theorem effect_form (i : Instr) (h : ShadowForm s) : ShadowForm (effect i s) := by
  have hput : ∀ t o v, ShadowForm t → o < t.cfg.shadowSize → ShadowForm (putByte o v t) :=
    fun _ _ _ ht ho => putByte_form ht ho
  cases i with
  | setField ch slot field value => exact writeField_form (s := s) ch.toNat slot.toNat field.toNat value h
  | initVoice ch => exact initVoice_induct (P := ShadowForm) hput ch.toNat h
  | mirror src dst => exact mirrorVoice_induct (P := ShadowForm) hput src.toNat dst.toNat h
  | busReset => exact ⟨rfl, nofun⟩
  | _ => exact h

/-- A field just set holds the value reduced to its width (R124, R127). -/
theorem extractField_effect_setField (hw : s.cfg.wf = true) (hF : ShadowForm s) {ch : Nibble} {slot : SlotIndex}
    {field : FieldIndex} (hd : s.cfg.fields[field.toNat]? = some d)
    (hr : resolve s.cfg ch.toNat slot.toNat field.toNat = some o) (value : Byte) :
    extractField d (shRead (effect (.setField ch slot field value) s) o) = value &&& fieldMask d.w := by
  rw [effect, writeField_of_resolve hd hr, shRead_answer, shRead_putByte_self hF,
    extract_insert_self value _ (field_in_byte hw hd).2]

/-- A field write that does not write the field `f` at `o` keeps that field. -/
theorem writeField_keeps (hw : s.cfg.wf = true) (hF : ShadowForm s) (hd : s.cfg.fields[f]? = some d) (hk : slot < 4)
    (hr : resolve s.cfg ch slot f = some o) {ch' slot' g : Nat} (hk' : slot' < 4) (v : Byte)
    (hne : g = f → resolve s.cfg ch' slot' g ≠ some o) :
    extractField d (shRead (writeField ch' slot' g v s) o) = extractField d (shRead s o) := by
  by_cases hg : g = f
  · rcases writeField_cases ch' slot' g v s with ⟨-, h⟩ | ⟨e, o', -, hr', -, h⟩
    · rw [h]
    · have ho : o ≠ o' := fun heq => hne hg (heq ▸ hr')
      rw [h, shRead_putByte_ne ho]
  · exact field_kept hw hF hd hk hr ch' hk' v hg

/-- Field writes none of which writes the field `f` at `o` keep that field. -/
theorem writeVoice_keeps (hw : s.cfg.wf = true) (hF : ShadowForm s) (hd : s.cfg.fields[f]? = some d) (hk : slot < 4)
    (hr : resolve s.cfg ch slot f = some o) (ch' : Nat) (voice : List DefaultWrite) (hv : VoiceNamed s.cfg voice)
    (hne : ∀ e ∈ voice, e.field = f → resolve s.cfg ch' e.slot e.field ≠ some o) :
    extractField d (shRead (writeVoice ch' voice s) o) = extractField d (shRead s o) := by
  induction voice generalizing s with
  | nil => rfl
  | cons e voice ih =>
    have hfirst := writeField_keeps hw hF hd hk hr (hv e List.mem_cons_self).2 e.value (hne e List.mem_cons_self)
    refine Eq.trans (ih ?_ (writeField_form ch' e.slot e.field e.value hF) ?_ ?_ ?_ ?_) hfirst <;>
      rw [writeField_cfg]
    · exact hw
    · exact hd
    · exact hr
    · exact fun x hx => hv x (List.mem_cons_of_mem e hx)
    · exact fun x hx => hne x (List.mem_cons_of_mem e hx)

/-- An operation that spares the field `f` of the register at `o` keeps that field (R127). -/
theorem effect_keeps_spared (hw : s.cfg.wf = true) (hF : ShadowForm s) (hd : s.cfg.fields[f]? = some d)
    (hk : slot < 4) (hr : resolve s.cfg ch slot f = some o) {i : Instr} (hi : sparesField s.cfg f o i) :
    extractField d (shRead (effect i s) o) = extractField d (shRead s o) := by
  cases i with
  | setField ch' slot' g v => exact writeField_keeps hw hF hd hk hr slot'.isLt v hi
  | initVoice ch' =>
    rw [effect, shRead_answer]
    rcases Nat.lt_or_ge ch'.toNat s.cfg.nCh with hc | hc
    · rw [initVoice_of_lt hc]
      exact writeVoice_keeps hw hF hd hk hr ch'.toNat _ (defaultVoice_named hw) (hi hc)
    · rw [initVoice_of_reject hc]
  | mirror src dst =>
    rw [effect, shRead_answer]
    by_cases hrej : s.cfg.nCh ≤ src.toNat ∨ s.cfg.nCh ≤ dst.toNat
    · rw [mirrorVoice_of_reject hrej]
    · obtain ⟨hsrc, hdst⟩ : src.toNat < s.cfg.nCh ∧ dst.toNat < s.cfg.nCh := by omega
      rw [shRead_mirrorVoice_of_ne hw hF hsrc hdst (hi hsrc)]
  | busReset => exact hi.elim
  | _ => rfl

/-- A reserved operation spares no field. -/
theorem not_reserved_of_spares {c : Config} {i : Instr} (h : sparesField c f o i) : isReserved i = false := by
  cases i with
  | reservedB | reservedC | reservedD | reservedE | reservedF => exact h.elim
  | _ => rfl

/-- Operations that spare the field `f` of the register at `o` complete and keep that field (R127). -/
theorem runOps_keeps_spared (hw : s.cfg.wf = true) (hF : ShadowForm s) (hd : s.cfg.fields[f]? = some d)
    (hk : slot < 4) (hr : resolve s.cfg ch slot f = some o) (xs : List Instr)
    (hxs : ∀ i ∈ xs, sparesField s.cfg f o i) :
    ∃ t, runOps xs s = .next t ∧ t.cfg = s.cfg ∧
      extractField d (shRead t o) = extractField d (shRead s o) := by
  induction xs generalizing s with
  | nil => exact ⟨s, rfl, rfl, rfl⟩
  | cons i xs ih =>
    have hi := hxs i List.mem_cons_self
    have hcfg : (effect i s).cfg = s.cfg := effect_cfg i s
    obtain ⟨t, hrun, htcfg, hread⟩ := ih (s := effect i s) (by rwa [hcfg]) (effect_form i hF) (by rwa [hcfg])
      (by rwa [hcfg]) (by rw [hcfg]; exact fun j hj => hxs j (List.mem_cons_of_mem i hj))
    exact ⟨t, (runOps_cons_of_wf (not_reserved_of_spares hi) hw).trans hrun, htcfg.trans hcfg,
      hread.trans (effect_keeps_spared hw hF hd hk hr hi)⟩

end Sys2Proof.Machine
end

section
/-! The shadow-register controller's statements (R123 to R133). -/

namespace Sys2Proof.Machine

/-- Settles O31: the accepted SETFIELD is one byte write, of the byte with the field inserted. -/
theorem setFieldDisturbsNothingElse : Obligations.SetFieldDisturbsNothingElse := by
  unfold Obligations.SetFieldDisturbsNothingElse
  intro s ch slot field value d o hw hF hd hr
  have hself := shRead_putByte_self (o := o) (v := insertField d value (shRead s o)) hF
  refine ⟨answer .none (putByte o (insertField d value (shRead s o)) s), ?_, fun i hi => ?_, fun o' ho' => ?_,
    ⟨(chipRegister s.cfg o).bank, (chipRegister s.cfg o).addr, ?_⟩, rfl, rfl, rfl⟩
  · rw [exec_setField hw, writeField_of_resolve hd hr]
  · rw [shRead_answer, hself, insertField_getLsbD (field_in_byte hw hd).2 hi]
  · rw [shRead_answer, shRead_putByte_ne ho']
  · rw [shRead_answer, hself, answer_bus, putByte_bus]

/-- Settles O33: SETFIELD puts the value in the field, the operations between keep the field, GETFIELD reads it. -/
theorem fieldRoundTrip : Obligations.FieldRoundTrip := by
  unfold Obligations.FieldRoundTrip
  intro s ch slot field value d o xs hw hF hd hr hxs
  have hcfg : (effect (.setField ch slot field value) s).cfg = s.cfg := effect_cfg _ s
  obtain ⟨t, hrun, htcfg, hkept⟩ := runOps_keeps_spared (s := effect (.setField ch slot field value) s)
    (by rwa [hcfg]) (effect_form _ hF) (by rwa [hcfg]) slot.isLt (by rwa [hcfg]) xs (by rwa [hcfg])
  rw [hcfg] at htcfg
  have hget : readField ch.toNat slot.toNat field.toNat t = .value (value &&& fieldMask d.w) := by
    rw [readField_of_resolve (s := t) (by rwa [htcfg]) (by rwa [htcfg]), hkept,
      extractField_effect_setField hw hF hd hr]
  refine ⟨answer (readField ch.toNat slot.toNat field.toNat t) t, ?_, hget⟩
  rw [runOps_cons_of_wf rfl hw, runOps_append, hrun]
  exact runOps_cons_of_wf rfl (by rwa [htcfg])

/-- Settles O35: the default voice's SETFIELDs lose nothing of their operands, and each resolves. -/
theorem initVoiceIsItsFieldWrites : Obligations.InitVoiceIsItsFieldWrites := by
  unfold Obligations.InitVoiceIsItsFieldWrites
  refine ⟨fun w h => ?_, fun s ch hw => ⟨fun hc => ?_, fun hc => ?_⟩⟩
  · rw [decodeCommand, h]
    rfl
  · rw [exec_initVoice hw, initVoice_of_reject hc, answer]
  · have hv := defaultVoice_named hw
    refine ⟨answer .none (writeVoice ch.toNat s.cfg.defaultVoice s), ?_, runOps_voiceOps hw ch _ hv,
      writeVoice_bus_length hw hc _ hv⟩
    rw [exec_initVoice hw, initVoice_of_lt hc]

/-- Settles O38: what MIRROR's loop has done at its end, where its offsets done are all of the destination's. -/
theorem mirrorCopiesEveryRegister : Obligations.MirrorCopiesEveryRegister := by
  unfold Obligations.MirrorCopiesEveryRegister
  refine ⟨fun w h => ?_, fun s src dst hw hF => ⟨fun hrej => ?_, fun hs hd => ?_⟩⟩
  · rw [decodeCommand, h]
    rfl
  · rw [exec_mirror hw, mirrorVoice_of_reject hrej, answer]
  · have hbus := (mirrorVoice_mirrored hw hF hs hd).bus
    rw [List.reverse_reverse] at hbus
    exact ⟨answer .none (mirrorVoice src.toNat dst.toNat s), exec_mirror hw src dst,
      fun f k d os od hf hg hk hos hod => shRead_mirrorVoice hw hF hs hd hf hg hk hos hod,
      fun o ho => shRead_mirrorVoice_of_ne hw hF hs hd ho, hbus, mirrorVoice_mpa _ _ s, mirrorVoice_cfg _ _ s,
      mirrorVoice_pending _ _ s, rfl⟩

/-- Settles O28: resolve's closed form, scope by scope. -/
theorem resolveByScope : Obligations.ResolveByScope := by
  unfold Obligations.ResolveByScope
  intro c ch slot f hw hs
  refine ⟨fun hf => resolve_of_nFields_le hf ch slot, fun d hd => ⟨fun hg => resolve_global hw hd hg ch hs,
    fun hg hc => resolve_of_nCh_le hw hd hg hc hs, fun hsc hc => ?_, fun hsc hc => ?_⟩⟩
  · rw [resolve_of_lt_nCh hw hd hc hs, hsc, registerOffset]
  · rw [resolve_of_lt_nCh hw hd hc hs, hsc, registerOffset]

/-- Settles O30: the accepted SETFIELD is one byte write, whose register the address map gives. -/
theorem setFieldWritesMirrorAndBus : Obligations.SetFieldWritesMirrorAndBus := by
  unfold Obligations.SetFieldWritesMirrorAndBus
  refine ⟨fun w h => ?_, fun s ch slot field value hw => ⟨fun hrej => ?_, fun d o m new hd hr hm hnew => ?_⟩⟩
  · rw [decodeCommand, h]
    rfl
  · rw [exec_setField hw, writeField_of_reject hrej, answer]
  · obtain ⟨-, -, -, ho, -⟩ := resolve_eq_some.1 hr
    have hbyte : new = insertField d value (shRead s o) := by rw [hnew, hm, insertField, fieldMask]
    refine ⟨chipRegister s.cfg o, addrMap_eq_some hw ho, ?_⟩
    rw [exec_setField hw, writeField_of_resolve hd hr, ← hbyte, answer, putByte, unlisted_eq]

/-- Settles O32: the read answers the field's bits of the shadow byte. -/
theorem getFieldReadsTheShadow : Obligations.GetFieldReadsTheShadow := by
  unfold Obligations.GetFieldReadsTheShadow
  refine ⟨fun w h => ?_, fun s ch slot field hw => ⟨fun hrej => ?_, fun d o hd hr => ?_⟩⟩
  · rw [decodeCommand, h]
    rfl
  · rw [exec_getField hw, readField_of_reject hrej, answer]
  · rw [exec_getField hw, readField_of_resolve hd hr, extractField, fieldMask, answer]

/-- Settles O34: each operation's reject is decided before it writes, and the default voice's elements resolve. -/
theorem rejectionIsAllOrNothing : Obligations.RejectionIsAllOrNothing := by
  unfold Obligations.RejectionIsAllOrNothing
  refine fun s hw => ⟨fun ch slot field value hrej => ⟨?_, ?_⟩, fun ch hc => ?_, fun src dst hrej => ?_,
    fun ch e hc he => ?_⟩
  · rw [exec_setField hw, writeField_of_reject hrej, answer]
  · rw [exec_getField hw, readField_of_reject hrej, answer]
  · rw [exec_initVoice hw, initVoice_of_reject hc, answer]
  · rw [exec_mirror hw, mirrorVoice_of_reject hrej, answer]
  · obtain ⟨-, o, -, ho, -⟩ := resolve_defaultVoice hw hc he
    rw [ho, Option.isSome_some]

end Sys2Proof.Machine
end

section
/-! The system operations (R140 to R142). -/

namespace Sys2Proof.Machine

/-- The five operation codes from 0xB on (R62). -/
theorem reserved_opcode_cases {op : Nibble} (h : 0xB ≤ op.toNat) :
    op = 0xB ∨ op = 0xC ∨ op = 0xD ∨ op = 0xE ∨ op = 0xF := by
  bv_omega

/-- Settles O1: the answer is the operation's whole effect. -/
theorem nopHasNoEffect : Obligations.NopHasNoEffect := by
  unfold Obligations.NopHasNoEffect
  refine ⟨fun w h => ?_, fun s hw => exec_of_wf rfl hw⟩
  rw [decodeCommand, h]
  rfl

/-- Settles O2: the bus's reset leaves no shadow byte listed, so every byte reads `SHADOW_RESET`. -/
theorem busResetClearsShadow : Obligations.BusResetClearsShadow := by
  unfold Obligations.BusResetClearsShadow
  refine ⟨fun w h => ?_, fun s hw => ?_⟩
  · rw [decodeCommand, h]
    rfl
  · have hread (o : Nat) : shRead (answer .none (resetBus s)) o = s.cfg.shadowReset := by
      rw [shRead_answer, shRead_of_sh_nil (resetBus_sh s), resetBus_cfg]
    refine ⟨answer .none (resetBus s), exec_of_wf rfl hw, ?_, fun o _ => hread o, ?_⟩
    · rw [answer_bus, resetBus_bus]
    · simp only [answer_mpa, answer_cfg, answer_pending, answer_result, resetBus_mpa, resetBus_cfg, resetBus_pending,
        and_self]

/-- Settles O3: each of the five codes decodes to its own reserved instruction, which looks at no state. -/
theorem reservedCodesRefused : Obligations.ReservedCodesRefused := by
  unfold Obligations.ReservedCodesRefused
  refine ⟨fun w s h => ?_, fun s => ⟨rfl, rfl, rfl, rfl, rfl⟩⟩
  rcases reserved_opcode_cases h with hop | hop | hop | hop | hop <;>
    · rw [decodeCommand, hop]
      rfl

end Sys2Proof.Machine
end

section
/-! The host's main loop and Dispatcher (R150, R158). -/

namespace Sys2Proof.Machine

variable {s : State} {c : Config} {t : DispatcherTables} {e : MidiEvent}

/-- R150: a turn on a byte is its FEED, then the dispatch of what FEED answered. -/
theorem mainLoopTurn_byte (hw : s.cfg.wf = true) (b : Byte) :
    mainLoopTurn t (some b) s = dispatchResult t (feedByte b s) := by
  simp only [mainLoopTurn, itemOp, (isFeedOf_feed b).exec_eq hw]

/-- R150: an event the Dispatcher has no action for ends the turn where FEED left it. -/
theorem dispatchResult_of_dispatch_nil (hr : s.result = .event e) (hd : dispatchEvent t s.cfg e = []) :
    dispatchResult t s = .next s := by
  simp only [dispatchResult, hr, hd, blockOps, List.filterMap_nil, runOps]

/-- R56: kind 11 goes to the controllers' handler. -/
theorem dispatchEvent_controller (hk : e.kind = 0b11) :
    dispatchEvent t c e = dispatchController t e.channel e.data1 e.data2 := by
  rw [dispatchEvent, hk]
  rfl

/-- R158: no table knows the number, so there is no action. -/
theorem dispatchController_unrecognised {cc : BitVec 7} (hn : lookupController t cc = none) (channel : Nibble)
    (value : BitVec 7) : dispatchController t channel cc value = [] := by
  simp only [dispatchController, hn]

/-- R55: a Control-Change packet's event is of kind 11, on the status byte's channel. -/
theorem eventOf_controller {status : Byte} (h : commandNibble status = 0xB) (d1 value : BitVec 7) :
    eventOf status d1 (dataByte value) = ⟨0b11, status.extractLsb' 0 4, d1, value⟩ := by
  rw [eventOf, kind_of_commandNibble, h, dataValue_dataByte, channelNibble]
  rfl

/-- Settles O56: the event FEED emits is of the controllers' kind, and an unrecognised number gives no action for it. -/
theorem unrecognisedControllerDoesNothing : Obligations.UnrecognisedControllerDoesNothing := by
  unfold Obligations.UnrecognisedControllerDoesNothing
  intro t s value hw hs hc hcmd hn
  have hlast : ¬s.mpa.cnt.toNat + 1 < s.mpa.need.toNat := by omega
  have hnil : dispatchEvent t s.cfg ⟨0b11, s.mpa.status.extractLsb' 0 4, s.mpa.d1, value⟩ = [] :=
    (dispatchEvent_controller rfl).trans (dispatchController_unrecognised hn _ value)
  rw [mainLoopTurn_byte hw, feedByte_last (isStatus_dataByte value) hs hlast, eventOf_controller hcmd, Mpa.idle]
  exact dispatchResult_of_dispatch_nil rfl hnil

end Sys2Proof.Machine
end

section
/-! Faults, refusals, completion (R170). -/

namespace Sys2Proof.Machine

/-- Settles O47: there is no reason to fault (`Fault` has no constructor), and an operation that is not reserved
completes with its effect under a well-formed configuration. -/
theorem admittedOperationsComplete : Obligations.AdmittedOperationsComplete := by
  unfold Obligations.AdmittedOperationsComplete
  have hfault : ∀ (i : Instr) (s : State) (r : Fault), exec i s ≠ .fault r := fun _ _ r => nomatch r
  exact ⟨hfault, fun i s hw hi => ⟨effect i s, exec_of_wf hi hw⟩⟩

end Sys2Proof.Machine
end

section
/-! What each kind of operation can do to the state (R10, R80, R100, R120). -/

namespace Sys2Proof.Machine

variable {i : Instr} {s : State}

/-- R80, R82: an operation of the packet assembler is the FEED of one byte or the abort of a packet. -/
theorem effect_of_midiOp (hi : isMidiOp i = true) :
    (∃ b, ∀ s, effect i s = feedByte b s) ∨ ∀ s, effect i s = abortPacket s := by
  cases i with
  | feedFail => exact .inr fun _ => rfl
  | feed _ | data _ | noteOff _ | noteOn _ | polyPressure _ | controlChange _ | programChange _ | channelPressure _
  | pitchBend _ | system _ => exact .inl ⟨_, fun _ => rfl⟩
  | _ => cases hi

/-- R100, R126, R140: an operation that neither feeds the assembler nor writes the shadow shows a result and does
nothing else. -/
theorem effect_of_reader (hm : isMidiOp i = false) (hw : isShadowWriter i = false) (s : State) :
    effect i s = answer (effect i s).result s := by
  cases i with
  | setField _ _ _ _ | initVoice _ | mirror _ _ | busReset => cases hw
  | feed _ | feedFail | data _ | noteOff _ | noteOn _ | polyPressure _ | controlChange _ | programChange _
  | channelPressure _ | pitchBend _ | system _ => cases hm
  | _ => rfl

/-- R10: a writer of the shadow answers nothing, and any property that byte writes inside the shadow and the chip reset
keep holds of the state it leaves. -/
theorem effect_of_shadowWriter {P : State → Prop} (hput : ∀ s o v, P s → o < s.cfg.shadowSize → P (putByte o v s))
    (hreset : ∀ s, P s → P (resetBus s)) (hi : isShadowWriter i = true) (hs : P s) :
    ∃ t, P t ∧ effect i s = answer .none t := by
  cases i with
  | setField ch slot field value => exact ⟨_, writeField_induct hput ch.toNat slot.toNat field.toNat value hs, rfl⟩
  | initVoice ch => exact ⟨_, initVoice_induct hput ch.toNat hs, rfl⟩
  | mirror src dst => exact ⟨_, mirrorVoice_induct hput src.toNat dst.toNat hs, rfl⟩
  | busReset => exact ⟨_, hreset s hs, rfl⟩
  | _ => cases hi

/-- R80: the assembler's operations change its registers and the result only. -/
theorem effect_frame_of_midiOp (hi : isMidiOp i = true) (s : State) :
    effect i s = { s with mpa := (effect i s).mpa, result := (effect i s).result } := by
  rcases effect_of_midiOp hi with ⟨b, h⟩ | h
  · rw [h]; rfl
  · rw [h]; rfl

/-- R120, R141: the writers of the shadow change the shadow, the bus history and the result only. -/
theorem effect_frame_of_shadowWriter (hi : isShadowWriter i = true) (s : State) :
    effect i s = { s with sh := (effect i s).sh, bus := (effect i s).bus, result := (effect i s).result } := by
  obtain ⟨t, ⟨sh, bus, rfl⟩, h⟩ := effect_of_shadowWriter (P := fun t => ∃ sh bus, t = { s with sh := sh, bus := bus })
    (by rintro _ o v ⟨sh, bus, rfl⟩ -; exact ⟨_, _, rfl⟩) (by rintro _ ⟨sh, bus, rfl⟩; exact ⟨_, _, rfl⟩) hi
    ⟨s.sh, s.bus, rfl⟩
  rw [h]; rfl

/-- R80: only the assembler's operations write its registers. -/
theorem effect_mpa_of_not_midiOp (hi : isMidiOp i = false) (s : State) : (effect i s).mpa = s.mpa := by
  cases hw : isShadowWriter i with
  | true => rw [effect_frame_of_shadowWriter hw]
  | false => rw [effect_of_reader hi hw, answer_mpa]

/-- R10: only the writers of the shadow write shadow and bus. -/
theorem effect_sh_bus_of_not_shadowWriter (hi : isShadowWriter i = false) (s : State) :
    (effect i s).sh = s.sh ∧ (effect i s).bus = s.bus := by
  cases hm : isMidiOp i with
  | true => rw [effect_frame_of_midiOp hm]; exact ⟨rfl, rfl⟩
  | false => rw [effect_of_reader hm hi]; exact ⟨rfl, rfl⟩

end Sys2Proof.Machine
end

section
/-! The shadow-register controller does not look at the assembler's registers nor at the model's own ports (R3). -/

namespace Sys2Proof.Machine

/-- The state with other registers of the assembler and other contents of the model's own ports. -/
def withPorts (m : Mpa) (r : Result) (p : List Input) (s : State) : State :=
  { s with mpa := m, result := r, pending := p }

variable (m : Mpa) (r : Result) (p : List Input) (s : State)

/-- Two states that agree on configuration, shadow and bus history differ in registers and ports only. -/
theorem eq_withPorts {s u : State} (hcfg : s.cfg = u.cfg) (hsh : s.sh = u.sh) (hbus : s.bus = u.bus) :
    u = withPorts u.mpa u.result u.pending s := by
  rw [withPorts, hcfg, hsh, hbus]

theorem writeField_withPorts (ch slot f : Nat) (value : Byte) :
    writeField ch slot f value (withPorts m r p s) = withPorts m r p (writeField ch slot f value s) := by
  simp only [writeField, withPorts]
  split <;> rfl

theorem writeVoice_withPorts (ch : Nat) (voice : List DefaultWrite) :
    writeVoice ch voice (withPorts m r p s) = withPorts m r p (writeVoice ch voice s) :=
  List.foldl_hom (withPorts m r p) fun t e => writeField_withPorts m r p t ch e.slot e.field e.value

theorem initVoice_withPorts (ch : Nat) :
    initVoice ch (withPorts m r p s) = withPorts m r p (initVoice ch s) := by
  rcases Nat.lt_or_ge ch s.cfg.nCh with h | h
  · rw [initVoice_of_lt h, ← writeVoice_withPorts]
    exact initVoice_of_lt (s := withPorts m r p s) h
  · rw [initVoice_of_reject h]
    exact initVoice_of_reject (s := withPorts m r p s) h

theorem mirrorTurn_withPorts (src dst : Nat) (acc : State × List Nat) (fk : Nat × Nat) :
    mirrorTurn src dst (withPorts m r p acc.1, acc.2) fk =
      (withPorts m r p (mirrorTurn src dst acc fk).1, (mirrorTurn src dst acc fk).2) := by
  simp only [mirrorTurn, withPorts]
  split
  · split <;> rfl
  · rfl

theorem mirrorVoice_withPorts (src dst : Nat) :
    mirrorVoice src dst (withPorts m r p s) = withPorts m r p (mirrorVoice src dst s) := by
  by_cases h : s.cfg.nCh ≤ src ∨ s.cfg.nCh ≤ dst
  · rw [mirrorVoice_of_reject h]
    exact mirrorVoice_of_reject (s := withPorts m r p s) h
  · have h' : ¬((withPorts m r p s).cfg.nCh ≤ src ∨ (withPorts m r p s).cfg.nCh ≤ dst) := h
    rw [mirrorVoice, mirrorVoice, if_neg h, if_neg h']
    exact congrArg Prod.fst (List.foldl_hom (fun acc : State × List Nat => (withPorts m r p acc.1, acc.2))
      (l := mirrorOperands s.cfg) (init := (s, [])) (mirrorTurn_withPorts m r p src dst))

/-- R3: an operation outside the assembler gives the same shadow, bus history and result whatever the assembler's
registers and the ports hold. -/
theorem effect_withPorts {i : Instr} (hm : isMidiOp i = false) (hr : isReserved i = false) :
    effect i (withPorts m r p s) = withPorts m (effect i s).result p (effect i s) := by
  cases i with
  | setField ch slot f value => exact congrArg (answer .none) (writeField_withPorts m r p s ch.toNat slot.toNat _ _)
  | initVoice ch => exact congrArg (answer .none) (initVoice_withPorts m r p s ch.toNat)
  | mirror src dst => exact congrArg (answer .none) (mirrorVoice_withPorts m r p s src.toNat dst.toNat)
  | nop | encFm _ | encPsg _ | encNoise _ | getField _ _ _ | busReset => rfl
  | reservedB | reservedC | reservedD | reservedE | reservedF => cases hr
  | _ => cases hm

/-- R3: an operation of the assembler gives the same registers and result in states that agree on configuration and
registers. -/
theorem effect_midiOp_congr {i : Instr} (hi : isMidiOp i = true) {s u : State} (hcfg : s.cfg = u.cfg)
    (hmpa : s.mpa = u.mpa) : (effect i s).mpa = (effect i u).mpa ∧ (effect i s).result = (effect i u).result := by
  rcases effect_of_midiOp hi with ⟨b, h⟩ | h
  · rw [h, h, feedByte_mpa, feedByte_mpa, feedByte_result, feedByte_result, hcfg, hmpa]
    exact ⟨rfl, rfl⟩
  · rw [h, h]
    exact ⟨rfl, rfl⟩

end Sys2Proof.Machine
end

section
/-! What every step keeps: the registers of R13, the shadow's form, the shadow invariant of R18. -/

namespace Sys2Proof.Machine

variable {i : Instr} {s : State}

/-- Every operation keeps the registers of R13. -/
theorem effect_legal (hw : s.cfg.wf = true) (h : s.mpa.Legal s.cfg) (i : Instr) :
    (effect i s).mpa.Legal s.cfg := by
  cases hi : isMidiOp i with
  | false => rwa [effect_mpa_of_not_midiOp hi]
  | true =>
    rcases effect_of_midiOp hi with ⟨b, he⟩ | he <;> rw [he]
    · exact feedMpa_legal hw h
    · exact idle_legal s.cfg

/-- After a chip reset every shadow byte and every tracked register is at the reset value (R18, R141). -/
theorem resetBus_exact (s : State) : ShadowExact (resetBus s) := by
  intro o _
  rw [shRead_of_sh_nil (resetBus_sh s), resetBus_cfg, resetBus_bus, lastWritten_append]

/-- What a byte write needs in order to keep the shadow invariant, and keeps. -/
def ShadowSound (s : State) : Prop := s.cfg.wf = true ∧ ShadowForm s ∧ ShadowExact s

theorem putByte_sound (s : State) (o : Nat) (v : Byte) (h : ShadowSound s) (ho : o < s.cfg.shadowSize) :
    ShadowSound (putByte o v s) := by
  obtain ⟨hw, hF, hE⟩ := h
  exact ⟨hw, putByte_form hF ho, putByte_exact hw hF hE ho⟩

theorem resetBus_sound (s : State) (h : ShadowSound s) : ShadowSound (resetBus s) :=
  ⟨h.1, ⟨rfl, nofun⟩, resetBus_exact s⟩

/-- The shadow invariant speaks of shadow, bus history and configuration only. -/
theorem ShadowExact.congr {t : State} (h : ShadowExact s) (hcfg : t.cfg = s.cfg) (hsh : t.sh = s.sh)
    (hbus : t.bus = s.bus) : ShadowExact t := by
  intro o ho
  rw [hcfg] at ho
  rw [hbus, hcfg, ← h o ho, shRead, shRead, unlisted_eq, unlisted_eq, hcfg, hsh]

/-- Every operation keeps the shadow invariant (R18). -/
theorem effect_exact (hw : s.cfg.wf = true) (hF : ShadowForm s) (hE : ShadowExact s) (i : Instr) :
    ShadowExact (effect i s) := by
  cases hi : isShadowWriter i with
  | true =>
    obtain ⟨t, ⟨-, -, hEt⟩, he⟩ := effect_of_shadowWriter (P := ShadowSound) putByte_sound resetBus_sound hi
      (s := s) ⟨hw, hF, hE⟩
    rw [he]
    exact hEt.congr rfl rfl rfl
  | false =>
    obtain ⟨hsh, hbus⟩ := effect_sh_bus_of_not_shadowWriter hi s
    exact hE.congr (effect_cfg i s) hsh hbus

/-- Every operation keeps the invariant. -/
theorem effect_inv (hw : s.cfg.wf = true) (h : s.Inv) (i : Instr) : (effect i s).Inv := by
  obtain ⟨hL, hF, hE⟩ := h
  have hL' : (effect i s).mpa.Legal (effect i s).cfg := by
    rw [effect_cfg]
    exact effect_legal hw hL i
  exact ⟨hL', effect_form i hF, effect_exact hw hF hE i⟩

/-- Settles O51: a step is an operation on the state with its item taken, and every operation keeps the invariant. -/
theorem stepKeepsTheInvariant : Obligations.StepKeepsTheInvariant := by
  unfold Obligations.StepKeepsTheInvariant
  intro s t h hstep
  obtain ⟨i, rest, hexec⟩ := step_eq_next hstep
  obtain ⟨-, hw, rfl⟩ := exec_eq_next.1 hexec
  exact effect_inv hw h i

/-- Settles O50: the registers are idle, and with nothing listed and nothing on the bus every byte is at its reset
value. -/
theorem resetMeetsTheInvariant : Obligations.ResetMeetsTheInvariant := by
  unfold Obligations.ResetMeetsTheInvariant
  exact ⟨idle_legal _, ⟨rfl, nofun⟩, fun o _ => shRead_of_sh_nil reset_sh o⟩

end Sys2Proof.Machine
end

section
/-! Frames and independence of the units (R3, R48, R80, R100, R120, R143). -/

namespace Sys2Proof.Machine

/-- Every operation adds to the bus history at its end, if at all (R44). -/
theorem effect_bus_append (i : Instr) (s : State) : ∃ es, (effect i s).bus = s.bus ++ es := by
  cases hi : isShadowWriter i with
  | false => exact ⟨[], by rw [(effect_sh_bus_of_not_shadowWriter hi s).2, List.append_nil]⟩
  | true =>
    have hsnoc : ∀ {t : State} (e : BusEvent), (∃ es, t.bus = s.bus ++ es) → ∃ es, t.bus ++ [e] = s.bus ++ es :=
      fun e ⟨es, h⟩ => ⟨es ++ [e], by rw [h, List.append_assoc]⟩
    obtain ⟨t, ht, he⟩ := effect_of_shadowWriter (P := fun t => ∃ es, t.bus = s.bus ++ es) (i := i) (s := s)
      (fun _ _ _ h _ => hsnoc _ h) (fun _ h => hsnoc _ h) hi ⟨[], (List.append_nil _).symm⟩
    rwa [he]

/-- Settles O44: the assembler reads its registers and the configuration, the others what is not the assembler's. -/
theorem unitsAreIndependent : Obligations.UnitsAreIndependent := by
  unfold Obligations.UnitsAreIndependent
  intro i s t u v hcfg ht hv
  obtain ⟨hr, -, rfl⟩ := exec_eq_next.1 ht
  obtain ⟨-, -, rfl⟩ := exec_eq_next.1 hv
  refine ⟨fun hi hmpa => effect_midiOp_congr hi hcfg hmpa, fun hi hsh hbus => ?_⟩
  rw [eq_withPorts hcfg hsh hbus, effect_withPorts _ _ _ s hi hr]
  exact ⟨rfl, rfl, rfl⟩

/-- Settles O46: a writer of the shadow appends, and nothing else touches the bus. -/
theorem busHistoryOnlyGrows : Obligations.BusHistoryOnlyGrows := by
  unfold Obligations.BusHistoryOnlyGrows
  intro i s t ht
  obtain ⟨-, -, rfl⟩ := exec_eq_next.1 ht
  obtain ⟨es, hes⟩ := effect_bus_append i s
  refine ⟨es, hes, fun hi => ?_⟩
  rw [(effect_sh_bus_of_not_shadowWriter hi s).2] at hes
  exact List.self_eq_append_right.1 hes

/-- Settles O41: the frame of FEED and of the abort. -/
theorem packetOpsTouchOnlyTheAssembler : Obligations.PacketOpsTouchOnlyTheAssembler := by
  unfold Obligations.PacketOpsTouchOnlyTheAssembler
  intro i s t hi ht
  obtain ⟨-, -, rfl⟩ := exec_eq_next.1 ht
  exact effect_frame_of_midiOp hi s

/-- Settles O42: a reader only answers. -/
theorem readersChangeOnlyTheResult : Obligations.ReadersChangeOnlyTheResult := by
  unfold Obligations.ReadersChangeOnlyTheResult
  intro i s t hm hw ht
  obtain ⟨-, -, rfl⟩ := exec_eq_next.1 ht
  exact effect_of_reader hm hw s

/-- Settles O43: byte writes and the chip reset leave registers, configuration and pending items alone. -/
theorem shadowOpsLeaveTheAssembler : Obligations.ShadowOpsLeaveTheAssembler := by
  unfold Obligations.ShadowOpsLeaveTheAssembler
  intro i s t hi ht
  obtain ⟨-, -, rfl⟩ := exec_eq_next.1 ht
  exact effect_frame_of_shadowWriter hi s

/-- Settles O45: no effect writes the configuration, and taking an item does not. -/
theorem configurationNeverChanges : Obligations.ConfigurationNeverChanges := by
  unfold Obligations.ConfigurationNeverChanges
  have hexec : ∀ (i : Instr) (s t : State), exec i s = .next t → t.cfg = s.cfg := by
    intro i s t ht
    obtain ⟨-, -, rfl⟩ := exec_eq_next.1 ht
    exact effect_cfg i s
  refine ⟨hexec, fun s t ht => ?_⟩
  obtain ⟨i, rest, hi⟩ := step_eq_next ht
  exact hexec i { s with pending := rest } t hi

/-- Settles O48: an operation that is not reserved is admitted or refused for the configuration. -/
theorem illFormedConfigurationRefused : Obligations.IllFormedConfigurationRefused := by
  unfold Obligations.IllFormedConfigurationRefused
  intro i s hw hi
  rw [exec_of_not_reserved hi, admitted_of_not_wf hw]

/-- Settles O52: fetch takes the first item, or reads the idle port's word, which is NOP. -/
theorem stepRunsTheDecodedItem : Obligations.StepRunsTheDecodedItem := by
  unfold Obligations.StepRunsTheDecodedItem
  exact ⟨fun _ _ _ h => step_of_pending h, fun _ h => step_of_idle h⟩

/-- Settles O40: the three laws of memory. -/
theorem shadowWriteThenRead : Obligations.ShadowWriteThenRead := by
  unfold Obligations.ShadowWriteThenRead
  intro u v a m hm
  exact ⟨memRead_memWrite_self hm, fun b hb => memRead_memWrite_ne hb m, memWrite_wf hm⟩

end Sys2Proof.Machine
end

section
/-! The operands of a command word, read back from the parts it was put together from (R62, R63). -/

namespace Sys2Proof

variable (op ch src dst : Nibble) (slot : SlotIndex) (field : FieldIndex) (b : Byte) (key : Key)

theorem byteOperand_feed : byteOperand (commandWord op (0#12 ++ b)) = b :=
  (extract_commandWord op _ (by decide)).trans BitVec.extractLsb'_append_eq_right

theorem keyOperand_encode : keyOperand (commandWord op (0#13 ++ key)) = key :=
  (extract_commandWord op _ (by decide)).trans BitVec.extractLsb'_append_eq_right

theorem chOperand_initVoice : chOperand (commandWord op (ch ++ 0#16)) = ch :=
  (extract_commandWord op _ (by decide)).trans BitVec.extractLsb'_append_eq_left

theorem chOperand_mirror : chOperand (commandWord op (src ++ dst ++ 0#12)) = src :=
  (extract_commandWord op _ (by decide)).trans <| (BitVec.extractLsb'_append_eq_of_le (by decide)).trans
    BitVec.extractLsb'_append_eq_left

theorem dstOperand_mirror : dstOperand (commandWord op (src ++ dst ++ 0#12)) = dst :=
  (extract_commandWord op _ (by decide)).trans <| (BitVec.extractLsb'_append_eq_of_le (by decide)).trans
    BitVec.extractLsb'_append_eq_right

/-- The four operands of a field operation's word. -/
theorem fieldOp_operands :
    chOperand (commandWord op (ch ++ slot ++ field ++ b)) = ch ∧
      slotOperand (commandWord op (ch ++ slot ++ field ++ b)) = slot ∧
      fieldOperand (commandWord op (ch ++ slot ++ field ++ b)) = field ∧
      byteOperand (commandWord op (ch ++ slot ++ field ++ b)) = b := by
  refine ⟨(extract_commandWord op _ (by decide)).trans ?_, (extract_commandWord op _ (by decide)).trans ?_,
    (extract_commandWord op _ (by decide)).trans ?_, (extract_commandWord op _ (by decide)).trans ?_⟩
  · exact (BitVec.extractLsb'_append_eq_of_le (by decide)).trans <|
      (BitVec.extractLsb'_append_eq_of_le (by decide)).trans BitVec.extractLsb'_append_eq_left
  · exact (BitVec.extractLsb'_append_eq_of_le (by decide)).trans <|
      (BitVec.extractLsb'_append_eq_of_le (by decide)).trans BitVec.extractLsb'_append_eq_right
  · exact (BitVec.extractLsb'_append_eq_of_le (by decide)).trans BitVec.extractLsb'_append_eq_right
  · exact BitVec.extractLsb'_append_eq_right

/-- Settles O53: the decoder sees the operation code the encoder put in, and each operand's bits are the operand's. -/
theorem decodeOfEncode : Obligations.DecodeOfEncode := by
  unfold Obligations.DecodeOfEncode
  intro i
  cases i with
  | feed b => simp [encode, decodeInput, decodeCommand, opcodeOf_commandWord, byteOperand_feed]
  | encFm key | encPsg key | encNoise key =>
    simp [encode, decodeInput, decodeCommand, opcodeOf_commandWord, keyOperand_encode]
  | setField ch slot field value | getField ch slot field =>
    simp [encode, decodeInput, decodeCommand, opcodeOf_commandWord, fieldOp_operands]
  | initVoice ch => simp [encode, decodeInput, decodeCommand, opcodeOf_commandWord, chOperand_initVoice]
  | mirror src dst =>
    simp [encode, decodeInput, decodeCommand, opcodeOf_commandWord, chOperand_mirror, dstOperand_mirror]
  | nop | feedFail | busReset | reservedB | reservedC | reservedD | reservedE | reservedF =>
    simp [encode, decodeInput, decodeCommand, opcodeOf_commandWord]
  | data d => simp only [encode, decodeInput, decodeMidi_dataByte]
  | noteOff n | noteOn n | polyPressure n | controlChange n | programChange n | channelPressure n | pitchBend n
  | system n => simp [encode, decodeInput, decodeMidi_statusByte]

end Sys2Proof
end

section
/-! The opcode table's rows (R69). -/

namespace Sys2Proof

/-- R69: the rows of format CMD look at the operation code only. -/
theorem filter_commandRows (w : CommandWord) :
    (commandRows.filter fun r => r.matches w.toNat) =
      commandRows.filter fun r => (opcodeOf w).toNat <<< 20 == r.pattern := by
  refine List.filter_congr fun r hr => ?_
  have hmask : r.mask = 0xF00000 := by revert r hr; decide
  rw [OpcodeRow.matches, hmask, and_opcode_mask]

/-- R62, R69: the one row of an operation code is that of the decoder's operation. -/
theorem commandRow_of_opcode (w : CommandWord) :
    (commandRows.filter fun r => (opcodeOf w).toNat <<< 20 == r.pattern).map OpcodeRow.mnemonic =
      [(decodeCommand w).mnemonic] := by
  unfold decodeCommand
  have hlt := (opcodeOf w).isLt
  generalize (opcodeOf w).toNat = n at hlt ⊢
  interval_cases n <;> rfl

/-- R51: a status byte is its two nibbles. -/
theorem statusByte_nibbles (b : Byte) :
    Machine.statusByte (Machine.commandNibble b) (Machine.channelNibble b) = b :=
  BitVec.extractLsb'_append_extractLsb' (w := 4) (len := 4)

/-- R51: a data byte is its seven low bits. -/
theorem dataByte_dataValue {b : Byte} (h : Machine.isStatus b = false) :
    Machine.dataByte (Machine.dataValue b) = b := by
  revert b; decide

/-- R50, R51: a byte is a data byte's, or a status byte's of a command nibble from 8 on. -/
theorem byte_cases (b : Byte) :
    (∃ d, b = Machine.dataByte d) ∨ ∃ c n : Nibble, 8 ≤ c.toNat ∧ b = Machine.statusByte c n := by
  cases h : Machine.isStatus b with
  | true =>
    refine .inr ⟨Machine.commandNibble b, Machine.channelNibble b, ?_, (statusByte_nibbles b).symm⟩
    rw [← statusByte_nibbles b, Machine.isStatus_statusByte] at h
    exact of_decide_eq_true h
  | false => exact .inl ⟨Machine.dataValue b, (dataByte_dataValue h).symm⟩

/-- The eight command nibbles of a status byte (R51, R52). -/
theorem status_nibble_cases {c : Nibble} (h : 8 ≤ c.toNat) :
    c = 0x8 ∨ c = 0x9 ∨ c = 0xA ∨ c = 0xB ∨ c = 0xC ∨ c = 0xD ∨ c = 0xE ∨ c = 0xF := by
  bv_omega

/-- R50, R69: the one MIDI row of each of the 256 bytes is that of the decoder's operation. -/
theorem midiRow_of_byte (b : Byte) :
    (midiRows.filter fun r => r.matches b.toNat).map OpcodeRow.mnemonic = [(decodeMidi b).mnemonic] := by
  revert b; decide

/-- Settles O54: a command word's row is its operation code's, and a byte's is found among the nine. -/
theorem exactlyOneRowMatches : Obligations.ExactlyOneRowMatches := by
  unfold Obligations.ExactlyOneRowMatches
  exact ⟨fun w => by rw [filter_commandRows, commandRow_of_opcode], midiRow_of_byte⟩

end Sys2Proof
end

section
/-! The row of a byte inside a FEED (R69). -/

namespace Sys2Proof.Machine

/-- R69: the row a byte falls in is the FEED of that byte. -/
theorem isFeedOf_decodeMidi (b : Byte) : IsFeedOf (decodeMidi b) b := by
  rcases byte_cases b with ⟨d, rfl⟩ | ⟨c, n, hc, rfl⟩
  · rw [decodeMidi_dataByte]
    exact isFeedOf_data d
  · obtain ⟨h8, h9, hA, hB, hC, hD, hE, hF⟩ := decodeMidi_statusByte n
    rcases status_nibble_cases hc with rfl | rfl | rfl | rfl | rfl | rfl | rfl | rfl
    · exact h8 ▸ isFeedOf_noteOff n
    · exact h9 ▸ isFeedOf_noteOn n
    · exact hA ▸ isFeedOf_polyPressure n
    · exact hB ▸ isFeedOf_controlChange n
    · exact hC ▸ isFeedOf_programChange n
    · exact hD ▸ isFeedOf_channelPressure n
    · exact hE ▸ isFeedOf_pitchBend n
    · exact hF ▸ isFeedOf_system n

/-- Settles O15: both are the admitted FEED of the byte. -/
theorem feedRunsTheRowOfItsByte : Obligations.FeedRunsTheRowOfItsByte := by
  unfold Obligations.FeedRunsTheRowOfItsByte
  intro s b
  exact (isFeedOf_decodeMidi b s).symm

end Sys2Proof.Machine
end

section
/-! Events: none from outside the assembler, three kinds from it (R55, R65, R99). -/

namespace Sys2Proof.Machine

variable {i : Instr} {s : State} {e : MidiEvent}

/-- R126: a read answers a value or nothing. -/
theorem readField_ne_event (ch slot f : Nat) (s : State) (e : MidiEvent) : readField ch slot f s ≠ .event e := by
  unfold readField
  split <;> exact nofun

/-- R55: no operation outside the assembler answers an event. -/
theorem effect_result_ne_event (hm : isMidiOp i = false) (hr : isReserved i = false) (s : State) (e : MidiEvent) :
    (effect i s).result ≠ .event e := by
  cases i with
  | getField ch slot f => exact readField_ne_event ch.toNat slot.toNat f.toNat s e
  | nop | encFm _ | encPsg _ | encNoise _ | setField _ _ _ _ | initVoice _ | mirror _ _ | busReset => exact nofun
  | reservedB | reservedC | reservedD | reservedE | reservedF => cases hr
  | _ => cases hm

/-- R88: the byte that FEED answers with an event ends the packet in progress. -/
theorem feedMpa_event {c : Config} {b : Byte} {m : Mpa} (h : (feedMpa c b m).2 = .event e) :
    m.st = .awaitData ∧ e = eventOf m.status m.d1 b := by
  rcases feedMpa_cases c b m with ⟨-, -, hf⟩ | ⟨-, -, hf⟩ | ⟨-, -, hf⟩ | ⟨-, -, -, hf⟩ | ⟨-, hs, -, hf⟩ <;>
    rw [hf] at h
  · cases h
  · cases h
  · cases h
  · cases h
  · exact ⟨hs, (Result.event.inj h).symm⟩

/-- R13: in `AwaitData` the status byte is an enabled one. -/
theorem legal_enabled {c : Config} {m : Mpa} (h : m.Legal c) (hs : m.st = .awaitData) :
    commandNibble m.status ∈ c.en := by
  simp only [Mpa.Legal, hs] at h
  exact h.2.1

/-- R55: the kind of an enabled command's event. -/
theorem eventOf_kind {c : Config} (hw : c.wf = true) {status : Byte} (h : commandNibble status ∈ c.en) (d1 : BitVec 7)
    (b : Byte) : (eventOf status d1 b).kind = 0b00 ∨ (eventOf status d1 b).kind = 0b01 ∨
      (eventOf status d1 b).kind = 0b11 := by
  have hkind : (eventOf status d1 b).kind = (commandNibble status).extractLsb' 0 2 := kind_of_commandNibble status
  rw [hkind]
  rcases mem_en_cases hw h with h8 | h9 | hB
  · rw [h8]; exact .inl rfl
  · rw [h9]; exact .inr (.inl rfl)
  · rw [hB]; exact .inr (.inr rfl)

/-- Settles O17: an event comes of a FEED in `AwaitData`, where the status byte is of an enabled command. -/
theorem emittedKindIsOneOfThree : Obligations.EmittedKindIsOneOfThree := by
  unfold Obligations.EmittedKindIsOneOfThree
  intro i s t e hL ht he
  obtain ⟨hr, hw, rfl⟩ := exec_eq_next.1 ht
  cases hm : isMidiOp i with
  | false => exact absurd he (effect_result_ne_event hm hr s e)
  | true =>
    rcases effect_of_midiOp hm with ⟨b, h⟩ | h <;> rw [h] at he
    · obtain ⟨hs, rfl⟩ := feedMpa_event he
      exact eventOf_kind hw (legal_enabled hL hs) _ b
    · cases he

/-- Settles O18: each field is cut out above the fields to its right. -/
theorem eventWordLayout : Obligations.EventWordLayout := by
  unfold Obligations.EventWordLayout
  refine fun e => ⟨BitVec.extractLsb'_append_eq_of_le (by decide) |>.trans ?_,
    BitVec.extractLsb'_append_eq_of_le (by decide) |>.trans ?_, ?_, BitVec.extractLsb'_append_eq_right⟩
  · exact (BitVec.extractLsb'_append_eq_of_le (by decide)).trans BitVec.extractLsb'_append_eq_left
  · exact (BitVec.extractLsb'_append_eq_of_le (by decide)).trans BitVec.extractLsb'_append_eq_right
  · exact (BitVec.extractLsb'_append_eq_of_le (by decide)).trans BitVec.extractLsb'_append_eq_right

/-! Runs of operations, with their results (R99, R194) -/

/-- The operations are of the other units: none feeds the assembler, none is reserved. -/
def OtherUnits (xs : List Instr) : Prop := ∀ i ∈ xs, isMidiOp i = false ∧ isReserved i = false

theorem runResults_cons (hi : isReserved i = false) (hw : s.cfg.wf = true) (is : List Instr) :
    runResults (i :: is) s = (runResults is (effect i s)).map fun p => ((effect i s).result :: p.1, p.2) := by
  simp only [runResults, exec_of_wf hi hw]

/-- R99: operations of the other units complete, with no event, and leave the assembler as it is; a run goes on from
the state they leave. -/
theorem runResults_otherUnits (hw : s.cfg.wf = true) {xs : List Instr} (hxs : OtherUnits xs) :
    ∃ (rs : List Result) (t : State), (∀ r ∈ rs, ∀ e, r ≠ .event e) ∧ t.mpa = s.mpa ∧ t.cfg = s.cfg ∧
      ∀ ys, runResults (xs ++ ys) s = (runResults ys t).map fun p => (rs ++ p.1, p.2) := by
  induction xs generalizing s with
  | nil => exact ⟨[], s, nofun, rfl, rfl, fun ys => Option.map_id'.symm⟩
  | cons i xs ih =>
    obtain ⟨hm, hr⟩ := hxs i List.mem_cons_self
    have hcfg : (effect i s).cfg = s.cfg := effect_cfg i s
    obtain ⟨rs, t, hrs, hmpa, htcfg, hrun⟩ := ih (s := effect i s) (by rwa [hcfg])
      fun j hj => hxs j (List.mem_cons_of_mem i hj)
    refine ⟨(effect i s).result :: rs, t, ?_, hmpa.trans (effect_mpa_of_not_midiOp hm s), htcfg.trans hcfg,
      fun ys => ?_⟩
    · exact List.forall_mem_cons.2 ⟨effect_result_ne_event hm hr s, hrs⟩
    · rw [List.cons_append, runResults_cons hr hw, hrun, Option.map_map]
      rfl

/-- R99: a FEED that answers nothing, and operations of the other units after it, leave the assembler where the FEED
left it, with no event. -/
theorem runResults_feed_otherUnits (hw : s.cfg.wf = true) {b : Byte} {m : Mpa}
    (hb : feedMpa s.cfg b s.mpa = (m, .none)) {xs : List Instr} (hxs : OtherUnits xs) :
    ∃ (rs : List Result) (t : State), (∀ r ∈ rs, ∀ e, r ≠ .event e) ∧ t.mpa = m ∧ t.cfg = s.cfg ∧
      ∀ ys, runResults (.feed b :: (xs ++ ys)) s = (runResults ys t).map fun p => (rs ++ p.1, p.2) := by
  obtain ⟨rs, t, hrs, hmpa, hcfg, hrun⟩ := runResults_otherUnits (s := feedByte b s) hw hxs
  rw [feedByte_mpa, hb] at hmpa
  refine ⟨.none :: rs, t, List.forall_mem_cons.2 ⟨nofun, hrs⟩, hmpa, hcfg, fun ys => ?_⟩
  have hfeed : effect (.feed b) s = feedByte b s := rfl
  rw [runResults_cons rfl hw, hfeed, hrun, Option.map_map, feedByte_result, hb]
  rfl

/-- Settles O16: the other units' operations leave the packet in progress where its last byte left it. -/
theorem noteOnSurvivesInterleaving : Obligations.NoteOnSurvivesInterleaving := by
  unfold Obligations.NoteOnSurvivesInterleaving
  intro s n k v xs ys hw _ he hxys
  obtain ⟨hxs, hys⟩ := List.forall_mem_append.1 hxys
  have hfirst : feedMpa s.cfg (statusByte 0x9 n) s.mpa = (⟨.awaitData, statusByte 0x9 n, 3, 1, 0⟩, .none) := by
    rw [feedMpa_enabled (by rw [isStatus_statusByte]; rfl) (by rwa [commandNibble_statusByte]), beginPacket,
      commandNibble_statusByte]
    rfl
  obtain ⟨rs, t, hrs, htmpa, htcfg, hrun⟩ := runResults_feed_otherUnits hw hfirst hxs
  have hsecond : feedMpa t.cfg (dataByte k) t.mpa = (⟨.awaitData, statusByte 0x9 n, 3, 2, k⟩, .none) := by
    have hcount : (1 : BitVec 2).toNat + 1 < (3 : BitVec 2).toNat := by decide
    rw [htmpa, feedMpa_short (isStatus_dataByte k) rfl hcount, dataValue_dataByte]
    rfl
  obtain ⟨rs', u, hrs', humpa, hucfg, hrun'⟩ := runResults_feed_otherUnits (by rwa [htcfg]) hsecond hys
  have hthird : feedMpa u.cfg (dataByte v) u.mpa = (Mpa.idle, .event ⟨0b01, n, k, v⟩) := by
    have hcount : ¬(2 : BitVec 2).toNat + 1 < (3 : BitVec 2).toNat := by decide
    rw [humpa, feedMpa_last (isStatus_dataByte v) rfl hcount, eventOf_statusByte]
    rfl
  have hlast : runResults [.feed (dataByte v)] u = some ([.event ⟨0b01, n, k, v⟩], feedByte (dataByte v) u) := by
    have hfeed : effect (.feed (dataByte v)) u = feedByte (dataByte v) u := rfl
    rw [runResults_cons rfl (by rwa [hucfg, htcfg]), hfeed, feedByte_result, hthird]
    rfl
  refine ⟨rs ++ rs', feedByte (dataByte v) u, ?_, List.forall_mem_append.2 ⟨hrs, hrs'⟩, ?_⟩
  · rw [hrun, hrun', hlast, List.append_assoc]
    rfl
  · rw [feedByte_mpa, hthird]

end Sys2Proof.Machine
end

section
/-! The frequency encoder's remaining statements (R101, R110, R112). -/

namespace Sys2Proof.Machine

/-- R110: the two pinned entries of a well-formed configuration. -/
theorem noise_pinned_entries {c : Config} (hw : c.wf = true) :
    c.noise[0]? = some (some ⟨.periodic, .rate512⟩) ∧ c.noise[6]? = some (some ⟨.white, .rate1024⟩) := by
  have h := (wf_conditions hw).noise
  simp only [noisePinned, Bool.and_eq_true, beq_iff_eq, List.getD_eq_getElem?_getD] at h
  obtain ⟨⟨hlen, h0⟩, h6⟩ := h
  rw [List.getElem?_eq_getElem (by omega), Option.getD_some] at h0 h6
  rw [List.getElem?_eq_getElem (by omega), List.getElem?_eq_getElem (by omega), h0, h6]
  exact ⟨rfl, rfl⟩

/-- Settles O24: the two pinned entries, by the key's pitch class. -/
theorem noiseEntriesOfTheSource : Obligations.NoiseEntriesOfTheSource := by
  unfold Obligations.NoiseEntriesOfTheSource
  intro s key hw
  obtain ⟨h0, h6⟩ := noise_pinned_entries hw
  refine ⟨fun h => ?_, fun h => ?_⟩
  · have hentry : s.cfg.noise[pitchClass key]? = some (some ⟨.periodic, .rate512⟩) := by rwa [pitchClass, h]
    rw [exec_encNoise hw, noiseCodeOf_of_entry hentry]
    rfl
  · have hentry : s.cfg.noise[pitchClass key]? = some (some ⟨.white, .rate1024⟩) := by rwa [pitchClass, h]
    rw [exec_encNoise hw, noiseCodeOf_of_entry hentry]
    rfl

/-- Settles O26: the twelve mantissas and periods, computed. -/
theorem referenceNoteValues : Obligations.ReferenceNoteValues := by
  unfold Obligations.ReferenceNoteValues
  decide

/-- R101: `t` is the integer nearest to the equal-tempered pitch `n` semitones above `c`, where the twelfth powers,
which are rational, say so. -/
theorem abs_sub_equalTempered_lt {c t : ℝ} (n : ℕ) (hc : 0 < c) (ht : 0 ≤ t - 1 / 2)
    (hlow : (t - 1 / 2) ^ 12 < c ^ 12 * 2 ^ n) (hhigh : c ^ 12 * 2 ^ n < (t + 1 / 2) ^ 12) :
    |t - c * (2 : ℝ) ^ ((n : ℝ) / 12)| < 1 / 2 := by
  have hpow : (c * (2 : ℝ) ^ ((n : ℝ) / 12)) ^ 12 = c ^ 12 * 2 ^ n := by
    rw [mul_pow, ← Real.rpow_natCast ((2 : ℝ) ^ ((n : ℝ) / 12)) 12, ← Real.rpow_mul (by norm_num),
      show (n : ℝ) / 12 * ((12 : ℕ) : ℝ) = n by push_cast; ring, Real.rpow_natCast]
  rw [← hpow] at hlow hhigh
  have h1 := lt_of_pow_lt_pow_left₀ 12 (by positivity) hlow
  have h2 := lt_of_pow_lt_pow_left₀ 12 (by linarith) hhigh
  rw [abs_lt]
  constructor <;> linarith

/-- Settles O27: the twelfth powers of the entries' half-integer neighbours enclose those of the scaled pitches. -/
theorem referenceTableIsEqualTempered : Obligations.ReferenceTableIsEqualTempered := by
  unfold Obligations.ReferenceTableIsEqualTempered
  intro n hn
  refine abs_sub_equalTempered_lt n (by norm_num) ?_ ?_ ?_ <;> interval_cases n <;> norm_num [referenceConfig]

end Sys2Proof.Machine
end

section
/-! Resolution names one register per offset (R121 condition 3). -/

namespace Sys2Proof.Machine

/-- Settles O29: a legal offset belongs to one register family, with one choice of the operands its scope uses. -/
theorem oneOffsetPerRegister : Obligations.OneOffsetPerRegister := by
  unfold Obligations.OneOffsetPerRegister
  intro c ch slot f ch' slot' g o d e hw hs hs' hd he hr hr'
  obtain ⟨d', hd', hc, -, ho⟩ := resolve_eq_some.1 hr
  obtain ⟨e', he', hc', -, ho'⟩ := resolve_eq_some.1 hr'
  obtain rfl : d = d' := Option.some.inj (hd.symm.trans hd')
  obtain rfl : e = e' := Option.some.inj (he.symm.trans he')
  obtain ⟨hb, hsc, hu⟩ := registerOffset_inj hw hd he hc hc' hs hs' (ho.symm.trans ho')
  rw [← hsc] at hu
  refine ⟨hb, hsc, fun hg => channel_of_register hw hd he hg hs hs' hr hr', fun hk => ?_⟩
  rw [hk] at hu
  exact (Prod.mk.inj hu).2

end Sys2Proof.Machine
end

section
/-! What INIT_VOICE leaves alone, and what a field it sets reads as afterwards (R128, R131). -/

namespace Sys2Proof.Machine

variable {s : State} {f o k : Nat} {d : FieldDescriptor}

/-- R128: a byte that no element of a voice resolves to is left alone. -/
theorem shRead_writeVoice_of_ne (ch : Nat) (voice : List DefaultWrite) (s : State)
    (h : ∀ e ∈ voice, resolve s.cfg ch e.slot e.field ≠ some o) : shRead (writeVoice ch voice s) o = shRead s o := by
  induction voice generalizing s with
  | nil => rfl
  | cons e voice ih =>
    have hfirst : shRead (writeField ch e.slot e.field e.value s) o = shRead s o := by
      rcases writeField_cases ch e.slot e.field e.value s with ⟨-, hw⟩ | ⟨d, o', -, hr, -, hw⟩
      · rw [hw]
      · have ho : o ≠ o' := fun heq => h e List.mem_cons_self (heq ▸ hr)
        rw [hw, shRead_putByte_ne ho]
    refine (ih _ ?_).trans hfirst
    rw [writeField_cfg]
    exact fun x hx => h x (List.mem_cons_of_mem e hx)

/-- Settles O36: the accepted INIT_VOICE is the default voice's field writes, the rejected one nothing. -/
theorem initVoiceLeavesOtherBytes : Obligations.InitVoiceLeavesOtherBytes := by
  unfold Obligations.InitVoiceLeavesOtherBytes
  intro s ch hw
  refine ⟨answer .none (initVoice ch.toNat s), exec_initVoice hw ch, fun o h => ?_, initVoice_mpa _ s,
    initVoice_cfg _ s, initVoice_pending _ s, rfl⟩
  rw [shRead_answer]
  rcases Nat.lt_or_ge ch.toNat s.cfg.nCh with hc | hc
  · rw [initVoice_of_lt hc, shRead_writeVoice_of_ne ch.toNat _ s h]
  · rw [initVoice_of_reject hc]

/-- Two slots of a field name one register of a channel exactly when they agree as far as the field's scope uses them
(R121 condition 3). -/
theorem resolve_eq_resolve_iff {c : Config} (hw : c.wf = true) (hd : c.fields[f]? = some d) {ch k k' : Nat}
    (hc : ch < c.nCh) (hk : k < 4) (hk' : k' < 4) :
    resolve c ch k' f = resolve c ch k f ↔ usedOperands d.scope 0 k' = usedOperands d.scope 0 k := by
  rw [resolve_of_lt_nCh hw hd hc hk, resolve_of_lt_nCh hw hd hc hk', Option.some_inj]
  refine ⟨fun h => ?_, fun h => ?_⟩
  · obtain ⟨-, -, hu⟩ := registerOffset_inj hw hd hd (.inr hc) (.inr hc) hk' hk h
    exact usedOperands_eq_of_eq hu 0
  · rw [← registerOffset_usedOperands c d.base d.scope ch k', usedOperands_eq_of_eq h ch, registerOffset_usedOperands]

/-- Whether an element of a voice sets the field `f`, of descriptor `d`, of slot `k`: it names that field and, as far
as the field's scope uses it, that slot. The channel the voice is written to plays no part. -/
def setsField (d : FieldDescriptor) (f k : Nat) (e : DefaultWrite) : Bool :=
  e.field == f && usedOperands d.scope 0 e.slot == usedOperands d.scope 0 k

/-- What a field reads as after one element of a voice, from what it read as before. -/
def fieldAfter (d : FieldDescriptor) (f k : Nat) (old : Byte) (e : DefaultWrite) : Byte :=
  if setsField d f k e then e.value &&& fieldMask d.w else old

/-- On a channel in range an element of a voice writes the field's register as that field exactly when it sets it. -/
theorem setsField_iff {c : Config} (hw : c.wf = true) (hd : c.fields[f]? = some d) {ch : Nat} (hc : ch < c.nCh)
    (hk : k < 4) (hr : resolve c ch k f = some o) {e : DefaultWrite} (he : e.slot < 4) :
    setsField d f k e = true ↔ e.field = f ∧ resolve c ch e.slot e.field = some o := by
  rw [setsField, Bool.and_eq_true, beq_iff_eq, beq_iff_eq]
  refine and_congr_right fun hf => ?_
  rw [hf, ← hr, resolve_eq_resolve_iff hw hd hc hk he]

/-- What a field reads as after one field write of a voice. -/
theorem extractField_writeField (hw : s.cfg.wf = true) (hF : ShadowForm s) (hd : s.cfg.fields[f]? = some d) {ch : Nat}
    (hc : ch < s.cfg.nCh) (hk : k < 4) (hr : resolve s.cfg ch k f = some o) {e : DefaultWrite} (he : e.slot < 4) :
    extractField d (shRead (writeField ch e.slot e.field e.value s) o) =
      fieldAfter d f k (extractField d (shRead s o)) e := by
  rw [fieldAfter]
  split
  · next hset =>
    obtain ⟨hf, hr'⟩ := (setsField_iff hw hd hc hk hr he).1 hset
    rw [writeField_of_resolve (hf ▸ hd) hr', shRead_putByte_self hF, extract_insert_self _ _ (field_in_byte hw hd).2]
  · next hset =>
    exact writeField_keeps hw hF hd hk hr he e.value fun hf hr' =>
      hset ((setsField_iff hw hd hc hk hr he).2 ⟨hf, hr'⟩)

/-- What a field reads as after a voice's field writes: the channel plays no part beyond the field's first value. -/
theorem extractField_writeVoice (hw : s.cfg.wf = true) (hF : ShadowForm s) (hd : s.cfg.fields[f]? = some d) {ch : Nat}
    (hc : ch < s.cfg.nCh) (hk : k < 4) (hr : resolve s.cfg ch k f = some o) {voice : List DefaultWrite}
    (hv : ∀ e ∈ voice, e.slot < 4) :
    extractField d (shRead (writeVoice ch voice s) o) =
      voice.foldl (fieldAfter d f k) (extractField d (shRead s o)) := by
  induction voice generalizing s with
  | nil => rfl
  | cons e voice ih =>
    obtain ⟨he, hv⟩ := List.forall_mem_cons.1 hv
    rw [List.foldl_cons, ← extractField_writeField hw hF hd hc hk hr he]
    have hcfg := writeField_cfg ch e.slot e.field e.value s
    exact ih (by rwa [hcfg]) (writeField_form ch e.slot e.field e.value hF) (by rwa [hcfg]) (by rwa [hcfg])
      (by rwa [hcfg]) hv

/-- A field that a voice sets reads the same after it whatever it read as before. -/
theorem foldl_fieldAfter_of_mem {voice : List DefaultWrite} {e : DefaultWrite} (he : e ∈ voice) (x y : Byte) :
    voice.foldl (fieldAfter d e.field e.slot) x = voice.foldl (fieldAfter d e.field e.slot) y := by
  induction voice generalizing x y with
  | nil => cases he
  | cons e' voice ih =>
    rw [List.foldl_cons, List.foldl_cons]
    rcases List.mem_cons.1 he with rfl | he
    · have hset : setsField d e.field e.slot e = true := by rw [setsField, beq_self_eq_true, beq_self_eq_true]; rfl
      rw [fieldAfter, fieldAfter, if_pos hset, if_pos hset]
    · exact ih he _ _

/-- R131: a field the default voice names reads the same after INIT_VOICE of any two channels in range. -/
theorem extractField_initVoice (hw : s.cfg.wf = true) (hF : ShadowForm s) {ch ch' o' : Nat} (hc : ch < s.cfg.nCh)
    (hc' : ch' < s.cfg.nCh) {e : DefaultWrite} (he : e ∈ s.cfg.defaultVoice) (hd : s.cfg.fields[e.field]? = some d)
    (hr : resolve s.cfg ch e.slot e.field = some o) (hr' : resolve s.cfg ch' e.slot e.field = some o') :
    extractField d (shRead (initVoice ch s) o) = extractField d (shRead (initVoice ch' s) o') := by
  have hv : ∀ x ∈ s.cfg.defaultVoice, x.slot < 4 := fun x hx => (defaultVoice_named hw x hx).2
  rw [initVoice_of_lt hc, initVoice_of_lt hc', extractField_writeVoice hw hF hd hc (hv e he) hr hv,
    extractField_writeVoice hw hF hd hc' (hv e he) hr' hv, foldl_fieldAfter_of_mem he]

/-- R130: a register of the destination reads as the source's, the Global ones being the same register. -/
theorem shRead_mirrorVoice_resolve (hw : s.cfg.wf = true) (hF : ShadowForm s) {src dst os od : Nat}
    (hs : src < s.cfg.nCh) (hdst : dst < s.cfg.nCh) (hd : s.cfg.fields[f]? = some d) (hk : k < 4)
    (hos : resolve s.cfg src k f = some os) (hod : resolve s.cfg dst k f = some od) :
    shRead (mirrorVoice src dst s) od = shRead s os := by
  by_cases hg : d.scope = .global
  · have hsame : os = od := by
      rw [resolve_global hw hd hg _ hk] at hos hod
      exact Option.some.inj (hos.symm.trans hod)
    rw [hsame]
    refine shRead_mirrorVoice_of_ne hw hF hs hdst fun g k' e he heg hk' hr => heg ?_
    obtain ⟨-, hsc, -⟩ := oneOffsetPerRegister s.cfg dst k' g dst k f od e d hw hk' hk he hd hr hod
    rw [hsc, hg]
  · exact shRead_mirrorVoice hw hF hs hdst hd hg hk hos hod

/-- Operations none of which is reserved complete under a well-formed configuration, each with its effect. -/
theorem runOps_of_wf (is : List Instr) (his : ∀ i ∈ is, isReserved i = false) {s : State} (hs : s.cfg.wf = true) :
    runOps is s = .next (is.foldl (fun t i => effect i t) s) := by
  induction is generalizing s with
  | nil => rfl
  | cons i is ih =>
    obtain ⟨hi, his⟩ := List.forall_mem_cons.1 his
    rw [runOps_cons_of_wf hi hs]
    exact ih his (by rwa [effect_cfg])

/-- Settles O39: after INIT_VOICE a field of the default voice does not depend on the channel, and MIRROR copies the
register it stands in. -/
theorem mirrorAgreesWithInitVoice : Obligations.MirrorAgreesWithInitVoice := by
  unfold Obligations.MirrorAgreesWithInitVoice
  intro s src dst hw hF hs hdst
  refine ⟨_, _, runOps_of_wf [.initVoice dst] (by simp [isReserved]) hw,
    runOps_of_wf [.initVoice src, .mirror src dst] (by simp [isReserved]) hw, fun e he => ?_⟩
  obtain ⟨d, od, hd, hod, hk⟩ := resolve_defaultVoice hw hdst he
  obtain ⟨-, os, -, hos, -⟩ := resolve_defaultVoice hw hs he
  have hcfg : (effect (.initVoice src) s).cfg = s.cfg := effect_cfg _ s
  have hmirror : shRead (effect (.mirror src dst) (effect (.initVoice src) s)) od = shRead (initVoice src.toNat s) os :=
    shRead_mirrorVoice_resolve (s := effect (.initVoice src) s) (by rwa [hcfg]) (effect_form _ hF) (by rwa [hcfg])
      (by rwa [hcfg]) (by rwa [hcfg]) hk (by rwa [hcfg]) (by rwa [hcfg])
  have hinit : extractField d (shRead (effect (.initVoice dst) s) od) =
      extractField d (shRead (initVoice src.toNat s) os) := extractField_initVoice hw hF hdst hs he hd hod hos
  simp only [List.foldl_cons, List.foldl_nil]
  rw [readField_of_resolve (s := effect (.initVoice dst) s) (by rwa [effect_cfg]) (by rwa [effect_cfg]),
    readField_of_resolve (s := effect (.mirror src dst) _) (by rwa [effect_cfg, hcfg]) (by rwa [effect_cfg, hcfg]),
    hmirror, hinit]

end Sys2Proof.Machine
end

section
/-! The reference configuration: one INIT_VOICE, and the boot (R129, R192). -/

namespace Sys2Proof.Machine

/-- Settles O37: the bytes of the six channels after their INIT_VOICE, computed. -/
theorem defaultVoiceReadsBack : Obligations.DefaultVoiceReadsBack := by
  unfold Obligations.DefaultVoiceReadsBack
  have hw : State.reset.cfg.wf = true := by decide
  have hread : ∀ ch : Nibble, ch.toNat < 6 →
      (∀ k, k < 4 → shRead (initVoice ch.toNat State.reset) (16 * (ch.toNat / 3) + ch.toNat % 3 + 3 * k) = 0x71) ∧
      shRead (initVoice ch.toNat State.reset) (12 + 16 * (ch.toNat / 3) + ch.toNat % 3) = 0x07 := by decide
  exact fun ch hc => ⟨_, exec_initVoice hw ch, hread ch hc⟩

/-- The state the boot sequence leaves, from reset (R192). -/
def booted : State := (bootOps referenceConfig).foldl (fun t i => effect i t) State.reset

/-- Settles O60: the boot's operations all complete, and the bus and bytes they leave are computed. -/
theorem bootSetsEveryVoice : Obligations.BootSetsEveryVoice := by
  unfold Obligations.BootSetsEveryVoice
  have hw : State.reset.cfg.wf = true := by decide
  have hread : ∀ o, o < 32 → shRead booted o = if o % 16 < 12 then 0x71 else if o % 16 < 15 then 0x07 else 0x00 := by
    decide
  refine ⟨booted, runOps_of_wf _ (by decide) hw, by decide, by decide, by decide, hread⟩

end Sys2Proof.Machine
end

section
/-! Words written out from the encoding (R62, R63). -/

namespace Sys2Proof

/-- Settles O55: the fourteen words and bytes, decoded. -/
theorem decodedWords : Obligations.DecodedWords := by
  unfold Obligations.DecodedWords
  decide

end Sys2Proof
end

section
/-! The Dispatcher's channels and controller tables (R151, R155, R156). -/

namespace Sys2Proof.Machine

variable {t : DispatcherTables} {c : Config} {e : MidiEvent} {channel : Nibble}

/-! The channel partition (R151) -/

theorem channelTarget_fmVoice (h : channel.toNat ≤ 5) : channelTarget channel = .fmVoice := by
  rw [channelTarget, if_pos h]

theorem channelTarget_psgTone (h : 6 ≤ channel.toNat) (h' : channel.toNat ≤ 8) : channelTarget channel = .psgTone := by
  rw [channelTarget, if_neg (by omega), if_pos h']

theorem channelTarget_psgNoise (h : channel.toNat = 9) : channelTarget channel = .psgNoise := by
  rw [channelTarget, if_neg (by omega), if_neg (by omega), if_pos h]

theorem channelTarget_fmExtended (h : 10 ≤ channel.toNat) (h' : channel.toNat ≤ 12) :
    channelTarget channel = .fmExtended := by
  rw [channelTarget, if_neg (by omega), if_neg (by omega), if_neg (by omega), if_pos h']

theorem channelTarget_nothing (h : 13 ≤ channel.toNat) : channelTarget channel = .nothing := by
  rw [channelTarget, if_neg (by omega), if_neg (by omega), if_neg (by omega), if_neg (by omega)]

/-! Which handler an event goes to (R56, R150) -/

theorem dispatchEvent_noteOn (hk : e.kind = 0b01) :
    dispatchEvent t c e = dispatchNoteOn t c e.channel e.data1 e.data2 := by
  rw [dispatchEvent, if_pos hk]

theorem dispatchEvent_noteOff (hk : e.kind = 0b00) : dispatchEvent t c e = dispatchNoteOff t e.channel := by
  rw [dispatchEvent, hk]
  rfl

/-- An event goes to one of the three handlers, or to none (R56). -/
theorem dispatchEvent_cases (t : DispatcherTables) (c : Config) (e : MidiEvent) :
    dispatchEvent t c e = dispatchNoteOn t c e.channel e.data1 e.data2 ∨
      dispatchEvent t c e = dispatchNoteOff t e.channel ∨
      dispatchEvent t c e = dispatchController t e.channel e.data1 e.data2 ∨ dispatchEvent t c e = [] := by
  unfold dispatchEvent
  split_ifs
  · exact .inl rfl
  · exact .inr (.inl rfl)
  · exact .inr (.inr (.inl rfl))
  · exact .inr (.inr (.inr rfl))

/-! Controllers (R156) -/

theorem dispatchController_of_lookup {cc : BitVec 7} {x : ControllerEntry} (h : lookupController t cc = some x)
    (channel : Nibble) (value : BitVec 7) : dispatchController t channel cc value =
      if controllerAdmitted (channelTarget channel) x then [.op (controllerWrite channel value x)] else [] := by
  simp only [dispatchController, h]

/-- A controller is one SETFIELD on its own channel, or nothing. -/
theorem dispatchController_cases (t : DispatcherTables) (channel : Nibble) (cc value : BitVec 7) :
    dispatchController t channel cc value = [] ∨ ∃ slot field v,
      dispatchController t channel cc value = [.op (.setField channel slot field v)] := by
  cases h : lookupController t cc with
  | none => exact .inl (dispatchController_unrecognised h channel value)
  | some x =>
    rw [dispatchController_of_lookup h]
    split
    · cases x <;> exact .inr ⟨_, _, _, rfl⟩
    · exact .inl rfl

/-- R156: on the FM voices, the tone channels and the noise channel every known controller is one SETFIELD. -/
theorem dispatchController_of_le_nine {cc : BitVec 7} {x : ControllerEntry} (hx : lookupController t cc = some x)
    (h : channel.toNat ≤ 9) (value : BitVec 7) :
    dispatchController t channel cc value = [.op (controllerWrite channel value x)] := by
  rw [dispatchController_of_lookup hx]
  obtain h5 | ⟨h6, h8⟩ | h9 : channel.toNat ≤ 5 ∨ (6 ≤ channel.toNat ∧ channel.toNat ≤ 8) ∨ channel.toNat = 9 := by
    omega
  · rw [channelTarget_fmVoice h5]; rfl
  · rw [channelTarget_psgTone h6 h8]; rfl
  · rw [channelTarget_psgNoise h9]; rfl

/-- R151, R156: on channels 10 to 12 it is one where extended FM addressing admits the entry. -/
theorem dispatchController_of_extended {cc : BitVec 7} {x : ControllerEntry} (hx : lookupController t cc = some x)
    (h : 10 ≤ channel.toNat) (h' : channel.toNat ≤ 12) (value : BitVec 7) :
    dispatchController t channel cc value =
      if controllerAdmitted .fmExtended x then [.op (controllerWrite channel value x)] else [] := by
  rw [dispatchController_of_lookup hx, channelTarget_fmExtended h h']

/-- An entry that extended FM addressing leaves out gives its SETFIELD up to channel 9 and nothing on 10 to 12. -/
theorem dispatchController_of_not_global {cc : BitVec 7} {x : ControllerEntry} (hx : lookupController t cc = some x)
    (hadm : controllerAdmitted .fmExtended x = false) (h : channel.toNat ≤ 12) (value : BitVec 7) :
    dispatchController t channel cc value =
      if channel.toNat ≤ 9 then [.op (controllerWrite channel value x)] else [] := by
  split
  · next h9 => exact dispatchController_of_le_nine hx h9 value
  · next h9 =>
    rw [dispatchController_of_extended hx (by omega) h, hadm]
    rfl

/-- Settles O58: the first table that knows the number gives the entry, which its channel's target admits or not. -/
theorem controllerTablesInOrder : Obligations.ControllerTablesInOrder := by
  unfold Obligations.ControllerTablesInOrder
  refine fun t ch cc value f k h => ⟨fun hg => ?_, fun hg hc => ?_, fun hg hc hk => ?_⟩
  · have hx : lookupController t cc = some (.global f) := by simp only [lookupController, hg]
    rcases Nat.lt_or_ge 9 ch.toNat with h9 | h9
    · exact dispatchController_of_extended hx h9 h value
    · exact dispatchController_of_le_nine hx h9 value
  · have hx : lookupController t cc = some (.perChannel f) := by simp only [lookupController, hg, hc]
    exact dispatchController_of_not_global hx rfl h value
  · have hx : lookupController t cc = some (.perSlot f k) := by simp only [lookupController, hg, hc, hk]
    exact dispatchController_of_not_global hx rfl h value

/-! Notes (R152 to R155) -/

/-- R151: a SETFIELD among a voice's writes is on that voice. -/
theorem ch_of_mem_voiceWrites {voice ch : Nibble} {slot : SlotIndex} {field : FieldIndex} {value : Byte}
    {ws : List HostWrite} (h : .op (.setField ch slot field value) ∈ voiceWrites voice ws) : ch = voice := by
  obtain ⟨x, -, hx⟩ := List.mem_map.1 h
  exact ((Instr.setField.inj (HostAction.op.inj hx)).1).symm

/-- R151: a SETFIELD issued for an event on an FM voice is on that voice. -/
theorem ch_of_mem_dispatchEvent (h : e.channel.toNat ≤ 5) {ch : Nibble} {slot : SlotIndex} {field : FieldIndex}
    {value : Byte} (hmem : .op (.setField ch slot field value) ∈ dispatchEvent t c e) : ch = e.channel := by
  have ht := channelTarget_fmVoice h
  rcases dispatchEvent_cases t c e with he | he | he | he <;> rw [he] at hmem
  · simp only [dispatchNoteOn, ht] at hmem
    rcases List.mem_cons.1 hmem with hfm | hmem
    · cases hfm
    · exact ch_of_mem_voiceWrites hmem
  · simp only [dispatchNoteOff, ht] at hmem
    exact ch_of_mem_voiceWrites hmem
  · rcases dispatchController_cases t e.channel e.data1 e.data2 with hn | ⟨slot', field', v, hw⟩
    · rw [hn] at hmem
      cases hmem
    · rw [hw, List.mem_singleton] at hmem
      exact (Instr.setField.inj (HostAction.op.inj hmem)).1
  · cases hmem

/-- R151: an event on channels 13 to 15 is dropped. -/
theorem dispatchEvent_of_nothing (h : 13 ≤ e.channel.toNat) : dispatchEvent t c e = [] := by
  have ht := channelTarget_nothing h
  rcases dispatchEvent_cases t c e with he | he | he | he <;> rw [he]
  · simp only [dispatchNoteOn, ht]
  · simp only [dispatchNoteOff, ht]
  · cases hx : lookupController t e.data1 with
    | none => exact dispatchController_unrecognised hx e.channel e.data2
    | some x =>
      rw [dispatchController_of_lookup hx, ht]
      rfl

/-- Settles O57: the target decides what each handler issues. -/
theorem channelPartition : Obligations.ChannelPartition := by
  unfold Obligations.ChannelPartition
  refine ⟨fun ch => ⟨channelTarget_fmVoice, channelTarget_psgTone, channelTarget_psgNoise, channelTarget_fmExtended,
    channelTarget_nothing⟩, fun t c e => ⟨fun h ch slot field value => ch_of_mem_dispatchEvent h, fun hk h h' => ?_,
    dispatchEvent_of_nothing⟩⟩
  rw [dispatchEvent_noteOn hk]
  simp only [dispatchNoteOn, channelTarget_fmExtended h h']

/-- Settles O59: a Note-Off goes by the channel's target alone. -/
theorem noteOffSilencesItsChannel : Obligations.NoteOffSilencesItsChannel := by
  unfold Obligations.NoteOffSilencesItsChannel
  intro t c e hk
  rw [dispatchEvent_noteOff hk]
  refine ⟨fun h => ?_, fun h h' => ?_, fun h => ?_⟩
  · simp only [dispatchNoteOff, channelTarget_fmVoice h]
    rfl
  · rcases Nat.lt_or_eq_of_le h' with h8 | h9
    · simp only [dispatchNoteOff, channelTarget_psgTone h (Nat.le_of_lt_succ h8)]
    · simp only [dispatchNoteOff, channelTarget_psgNoise h9]
  · rcases Nat.lt_or_ge 12 e.channel.toNat with h13 | h12
    · simp only [dispatchNoteOff, channelTarget_nothing h13]
    · simp only [dispatchNoteOff, channelTarget_fmExtended h h12]

end Sys2Proof.Machine
end
